-- ==== Sys2Proof/Word.lean ====
section
/-! DEFINITION. The widths of the machine's values (R6, R51): every value is unsigned, bit 0 is the least significant. -/

namespace Sys2Proof

/-- `u4`: a register index or a sprite height (R51). -/
abbrev Nibble := BitVec 4

/-- `u8`: a general register, a timer, a byte of memory, an immediate (R6, R30). -/
abbrev Byte := BitVec 8

/-- `u12`: the address field `nnn` of an instruction word (R51). -/
abbrev Addr := BitVec 12

/-- `u16`: an instruction word, `pc`, `I`, a stack slot (R6, R50). -/
abbrev Word := BitVec 16

end Sys2Proof
end

