-- ==== Sys2Proof/Syntax.lean ====
section
/-! DEFINITION. The instructions: one constructor for each row of the opcode table (R53), with the fields of the
word that the row has (R51). SHR and SHL keep the y nibble they ignore, and UNKNOWN keeps its whole word, so that
no bit of an encoding is lost. -/

namespace Sys2Proof

/-- One decoded instruction (R54: one of the 34 variants, or UNKNOWN). -/
inductive Instr where
  /-- 00E0 CLS (R110). -/
  | cls
  /-- 00EE RET (R70). -/
  | ret
  /-- 1nnn JP nnn (R71). -/
  | jp (nnn : Addr)
  /-- 2nnn CALL nnn (R72). -/
  | call (nnn : Addr)
  /-- 3xkk SE Vx, kk (R74). -/
  | seImm (x : Nibble) (kk : Byte)
  /-- 4xkk SNE Vx, kk (R75). -/
  | sneImm (x : Nibble) (kk : Byte)
  /-- 5xy0 SE Vx, Vy (R76). -/
  | seReg (x y : Nibble)
  /-- 6xkk LD Vx, kk (R80). -/
  | ldImm (x : Nibble) (kk : Byte)
  /-- 7xkk ADD Vx, kk (R81). -/
  | addImm (x : Nibble) (kk : Byte)
  /-- 8xy0 LD Vx, Vy (R82). -/
  | ldReg (x y : Nibble)
  /-- 8xy1 OR Vx, Vy (R83). -/
  | orReg (x y : Nibble)
  /-- 8xy2 AND Vx, Vy (R84). -/
  | andReg (x y : Nibble)
  /-- 8xy3 XOR Vx, Vy (R85). -/
  | xorReg (x y : Nibble)
  /-- 8xy4 ADD Vx, Vy (R86). -/
  | addReg (x y : Nibble)
  /-- 8xy5 SUB Vx, Vy (R87). -/
  | sub (x y : Nibble)
  /-- 8xy6 SHR Vx (R88), its y nibble ignored. -/
  | shr (x y : Nibble)
  /-- 8xy7 SUBN Vx, Vy (R89). -/
  | subn (x y : Nibble)
  /-- 8xyE SHL Vx (R90), its y nibble ignored. -/
  | shl (x y : Nibble)
  /-- 9xy0 SNE Vx, Vy (R77). -/
  | sneReg (x y : Nibble)
  /-- Annn LD I, nnn (R100). -/
  | ldI (nnn : Addr)
  /-- Bnnn JP V0, nnn (R73). -/
  | jpV0 (nnn : Addr)
  /-- Cxkk RND Vx, kk (R133). -/
  | rnd (x : Nibble) (kk : Byte)
  /-- Dxyn DRW Vx, Vy, n (R111). -/
  | drw (x y n : Nibble)
  /-- Ex9E SKP Vx (R120). -/
  | skp (x : Nibble)
  /-- ExA1 SKNP Vx (R121). -/
  | sknp (x : Nibble)
  /-- Fx07 LD Vx, DT (R130). -/
  | ldVxDt (x : Nibble)
  /-- Fx0A LD Vx, K (R122). -/
  | ldVxK (x : Nibble)
  /-- Fx15 LD DT, Vx (R131). -/
  | ldDtVx (x : Nibble)
  /-- Fx18 LD ST, Vx (R132). -/
  | ldStVx (x : Nibble)
  /-- Fx1E ADD I, Vx (R101). -/
  | addI (x : Nibble)
  /-- Fx29 LD F, Vx (R102). -/
  | ldF (x : Nibble)
  /-- Fx33 LD B, Vx (R103). -/
  | ldB (x : Nibble)
  /-- Fx55 LD [I], Vx (R104). -/
  | ldMemVx (x : Nibble)
  /-- Fx65 LD Vx, [I] (R105). -/
  | ldVxMem (x : Nibble)
  /-- Every word that matches no row (R57). -/
  | unknown (op : Word)
  deriving DecidableEq, Repr

end Sys2Proof
end

