-- ==== Sys2Proof/Decode.lean ====
section
/-! DEFINITION. The decoder (R51, R54), byte order of the word (R32), and the encoder written from the same patterns
(R53). -/

namespace Sys2Proof

/-- c, the first nibble (R51). -/
def fieldC (op : Word) : Nibble := op.extractLsb' 12 4
/-- x, the second nibble, a register index (R51). -/
def fieldX (op : Word) : Nibble := op.extractLsb' 8 4
/-- y, the third nibble, a register index (R51). -/
def fieldY (op : Word) : Nibble := op.extractLsb' 4 4
/-- n, the fourth nibble, a sprite height (R51). -/
def fieldN (op : Word) : Nibble := op.extractLsb' 0 4
/-- kk, the low 8 bits, an immediate byte (R51). -/
def fieldKK (op : Word) : Byte := op.extractLsb' 0 8
/-- nnn, the low 12 bits, an address (R51). -/
def fieldNNN (op : Word) : Addr := op.extractLsb' 0 12

/-- The words with c = 8 (R54): the minor opcode is n. -/
def decodeAlu (op : Word) : Instr :=
  match (fieldN op).toNat with
  | 0x0 => .ldReg (fieldX op) (fieldY op)
  | 0x1 => .orReg (fieldX op) (fieldY op)
  | 0x2 => .andReg (fieldX op) (fieldY op)
  | 0x3 => .xorReg (fieldX op) (fieldY op)
  | 0x4 => .addReg (fieldX op) (fieldY op)
  | 0x5 => .sub (fieldX op) (fieldY op)
  | 0x6 => .shr (fieldX op) (fieldY op)
  | 0x7 => .subn (fieldX op) (fieldY op)
  | 0xE => .shl (fieldX op) (fieldY op)
  | _ => .unknown op

/-- The words with c = E (R54): the minor opcode is kk. -/
def decodeKey (op : Word) : Instr :=
  match (fieldKK op).toNat with
  | 0x9E => .skp (fieldX op)
  | 0xA1 => .sknp (fieldX op)
  | _ => .unknown op

/-- The words with c = F (R54): the minor opcode is kk. -/
def decodeMisc (op : Word) : Instr :=
  match (fieldKK op).toNat with
  | 0x07 => .ldVxDt (fieldX op)
  | 0x0A => .ldVxK (fieldX op)
  | 0x15 => .ldDtVx (fieldX op)
  | 0x18 => .ldStVx (fieldX op)
  | 0x1E => .addI (fieldX op)
  | 0x29 => .ldF (fieldX op)
  | 0x33 => .ldB (fieldX op)
  | 0x55 => .ldMemVx (fieldX op)
  | 0x65 => .ldVxMem (fieldX op)
  | _ => .unknown op

/-- The decoder, total on every word: the dispatch of R54. A word that matches no defined instruction is UNKNOWN,
by name (R57). The patterns are those of R53 (PRESUMED, log entry 1). -/
def decode (op : Word) : Instr :=
  match (fieldC op).toNat with
  | 0x0 => if op = 0x00E0#16 then .cls else if op = 0x00EE#16 then .ret else .unknown op
  | 0x1 => .jp (fieldNNN op)
  | 0x2 => .call (fieldNNN op)
  | 0x3 => .seImm (fieldX op) (fieldKK op)
  | 0x4 => .sneImm (fieldX op) (fieldKK op)
  | 0x5 => if fieldN op = 0#4 then .seReg (fieldX op) (fieldY op) else .unknown op
  | 0x6 => .ldImm (fieldX op) (fieldKK op)
  | 0x7 => .addImm (fieldX op) (fieldKK op)
  | 0x8 => decodeAlu op
  | 0x9 => if fieldN op = 0#4 then .sneReg (fieldX op) (fieldY op) else .unknown op
  | 0xA => .ldI (fieldNNN op)
  | 0xB => .jpV0 (fieldNNN op)
  | 0xC => .rnd (fieldX op) (fieldKK op)
  | 0xD => .drw (fieldX op) (fieldY op) (fieldN op)
  | 0xE => decodeKey op
  | 0xF => decodeMisc op
  | _ => .unknown op

/-- The word of two consecutive bytes: big-endian, the byte at the lower address is bits 15 to 8 (R32). -/
def bigEndian (first second : Byte) : Word := first ++ second

/-- The byte of a word at the lower address (R32). -/
def highByte (op : Word) : Byte := op.extractLsb' 8 8

/-- The byte of a word at the higher address (R32). -/
def lowByte (op : Word) : Byte := op.extractLsb' 0 8

/-- Why a list of bytes holds no instruction. Raised by `decodeBytes` only. -/
inductive DecodeError where
  /-- Fewer than the 2 bytes an instruction has (R50, R59). Safe: nothing is decoded. -/
  | truncated
  deriving DecidableEq, Repr

/-- Decoding a list of bytes, total: the instruction of the first two, with the rest of the list. -/
def decodeBytes : List Byte → Except DecodeError (Instr × List Byte)
  | first :: second :: rest => .ok (decode (bigEndian first second), rest)
  | _ => .error .truncated

/-- A word with the fields c, nnn (R51). -/
def packNNN (c : Nibble) (nnn : Addr) : Word := c ++ nnn
/-- A word with the fields c, x, kk (R51). -/
def packXKK (c x : Nibble) (kk : Byte) : Word := c ++ (x ++ kk)
/-- A word with the fields c, x, y, n (R51). -/
def packXYN (c x y n : Nibble) : Word := c ++ (x ++ (y ++ n))

/-- The word of an instruction, by the patterns of R53. -/
def encode : Instr → Word
  | .cls => 0x00E0#16
  | .ret => 0x00EE#16
  | .jp nnn => packNNN 0x1#4 nnn
  | .call nnn => packNNN 0x2#4 nnn
  | .seImm x kk => packXKK 0x3#4 x kk
  | .sneImm x kk => packXKK 0x4#4 x kk
  | .seReg x y => packXYN 0x5#4 x y 0x0#4
  | .ldImm x kk => packXKK 0x6#4 x kk
  | .addImm x kk => packXKK 0x7#4 x kk
  | .ldReg x y => packXYN 0x8#4 x y 0x0#4
  | .orReg x y => packXYN 0x8#4 x y 0x1#4
  | .andReg x y => packXYN 0x8#4 x y 0x2#4
  | .xorReg x y => packXYN 0x8#4 x y 0x3#4
  | .addReg x y => packXYN 0x8#4 x y 0x4#4
  | .sub x y => packXYN 0x8#4 x y 0x5#4
  | .shr x y => packXYN 0x8#4 x y 0x6#4
  | .subn x y => packXYN 0x8#4 x y 0x7#4
  | .shl x y => packXYN 0x8#4 x y 0xE#4
  | .sneReg x y => packXYN 0x9#4 x y 0x0#4
  | .ldI nnn => packNNN 0xA#4 nnn
  | .jpV0 nnn => packNNN 0xB#4 nnn
  | .rnd x kk => packXKK 0xC#4 x kk
  | .drw x y n => packXYN 0xD#4 x y n
  | .skp x => packXKK 0xE#4 x 0x9E#8
  | .sknp x => packXKK 0xE#4 x 0xA1#8
  | .ldVxDt x => packXKK 0xF#4 x 0x07#8
  | .ldVxK x => packXKK 0xF#4 x 0x0A#8
  | .ldDtVx x => packXKK 0xF#4 x 0x15#8
  | .ldStVx x => packXKK 0xF#4 x 0x18#8
  | .addI x => packXKK 0xF#4 x 0x1E#8
  | .ldF x => packXKK 0xF#4 x 0x29#8
  | .ldB x => packXKK 0xF#4 x 0x33#8
  | .ldMemVx x => packXKK 0xF#4 x 0x55#8
  | .ldVxMem x => packXKK 0xF#4 x 0x65#8
  | .unknown op => op

/-- The two bytes of an instruction as memory holds them, the first at the lower address (R32). -/
def encodeBytes (i : Instr) : List Byte := [highByte (encode i), lowByte (encode i)]

/-- The instruction word whose bits are `w`, of which the opcode table gives the low `nbits`; bits above are 0. -/
def tableWord (nbits w : Nat) : Word := BitVec.ofNat 16 (w % 2 ^ nbits)

/-- What the decoder reads from an instruction numbered as the opcode table numbers it: the word is laid out in its
byte order and handed to `decodeBytes`. -/
def decodeTableWord (nbits w : Nat) : Option Instr :=
  match decodeBytes [highByte (tableWord nbits w), lowByte (tableWord nbits w)] with
  | .ok (i, _) => some i
  | .error _ => none

end Sys2Proof
end

