-- ==== Sys2Proof/Config.lean ====
section
/-! DEFINITION. What the implementation fixes (R4), and the one free value of the machine: the random source's bytes. -/

namespace Sys2Proof

/-- MEM_SIZE (R4): addresses 0x000 to 0xFFF exist. -/
def Config.memSize : Nat := 4096

/-- FONT_SIZE (R4): 16 glyphs of 5 bytes, at FONT_BASE 0x000. -/
def Config.fontSize : Nat := 80

/-- PROG_BASE (R4): where LOAD puts a program and where `pc` stands after RESET. -/
def Config.progBase : Nat := 0x200

/-- RAND (R4, R133, R155): the byte the random source supplies to the `k`-th execution of RND since the machine
was made. It has no value any proof can see, so what is proved holds for every source of bytes.
DESIGN CHOICE, log entry 3. -/
opaque Config.randByte (k : Nat) : Byte

end Sys2Proof
end

