-- ==== Sys2Proof/Machine/Framebuffer.lean ====
section
/-! DEFINITION. The framebuffer FB (R18): 64 columns of 32 one-bit pixels, `FB[x][y]`. -/

namespace Sys2Proof.Machine

/-- `FB : array[64][32] of bit`, column first (R18). -/
abbrev Framebuffer := Vector (Vector Bool 32) 64

/-- Every pixel 0 (R23, R110). -/
def blankFb : Framebuffer := Vector.replicate 64 (Vector.replicate 32 false)

/-- `FB[x][y]`. -/
def pixelAt (fb : Framebuffer) (x : Fin 64) (y : Fin 32) : Bool := fb[x][y]

/-- `FB[x][y] <- FB[x][y] ^ 1` (R111). -/
def flipPixel (fb : Framebuffer) (x : Fin 64) (y : Fin 32) : Framebuffer := fb.set x (fb[x].set y (!fb[x][y]))

/-- The snapshot of R157: 2048 bits in row-major order, index `y * 64 + x` holding `FB[x][y]`. -/
def fbSnapshot (fb : Framebuffer) : Vector Bool 2048 :=
  Vector.ofFn fun k => pixelAt fb ⟨k % 64, Nat.mod_lt _ (by decide)⟩ ⟨k / 64, by omega⟩

end Sys2Proof.Machine
end

