-- ==== Sys2Proof/Machine/Memory.lean ====
section
/-! DEFINITION. MEM (R19, R30) as a list of cells: what each byte reads, and the stores. Every address from 0x000 to
0xFFF exists and is readable and writable (R31, R38); a byte nothing has written reads as its RESET content (R23,
R43). A list of cells is canonical when its addresses strictly rise, all exist, and no cell holds what the address
reads as when it is not listed. -/

namespace Sys2Proof.Machine

/-- The bytes that differ from the RESET contents, in canonical form. -/
abbrev Memory := List Host.Cell

/-- What an unlisted address reads as: the RESET contents (R23), FONT at 0x000 to 0x04F and 0x00 elsewhere. -/
def unlistedByte (font : Font) (a : Nat) : Byte := if h : a < 80 then font[a] else 0

/-- The byte of the first cell listed for an address. -/
def Memory.lookup : Memory → Nat → Option Byte
  | [], _ => none
  | (b, w) :: m, a => if a = b then some w else Memory.lookup m a

/-- MemRead(a, 1) (R7). Only `a <= 0xFFF` is ever passed by an instruction; above it no byte exists (log entry 8). -/
def Memory.read (font : Font) (m : Memory) (a : Nat) : Byte := (Memory.lookup m a).getD (unlistedByte font a)

/-- Lists a byte at its place in the order of addresses. -/
def Memory.insert (a : Nat) (v : Byte) : Memory → Memory
  | [] => [(a, v)]
  | (b, w) :: m =>
    if a < b then (a, v) :: (b, w) :: m
    else if a = b then (a, v) :: m
    else (b, w) :: Memory.insert a v m

/-- Unlists an address. -/
def Memory.erase (a : Nat) (m : Memory) : Memory := m.filter (fun c => c.1 != a)

/-- MemWrite(a, 1, v) (R7). Storing what the unlisted address reads as unlists it, so that equal memories are equal
lists. Only `a <= 0xFFF` is ever passed; above it no byte exists and nothing is stored (log entry 8). -/
def Memory.write (font : Font) (m : Memory) (a : Nat) (v : Byte) : Memory :=
  if a ≤ 0xFFF then
    if v = unlistedByte font a then Memory.erase a m else Memory.insert a v m
  else m

/-- Stores bytes at consecutive addresses, the first at the lowest (R36). -/
def Memory.writeList (font : Font) (m : Memory) (a : Nat) : List Byte → Memory
  | [] => m
  | v :: vs => Memory.writeList font (Memory.write font m a v) (a + 1) vs

/-- Every listed address is at least `lo`, and addresses strictly rise. -/
def Memory.rising (lo : Nat) : Memory → Bool
  | [] => true
  | (a, _) :: m => decide (lo ≤ a) && Memory.rising (a + 1) m

/-- A listed cell exists, and differs from what its address reads as when unlisted. -/
def Memory.cellOk (font : Font) (c : Host.Cell) : Bool := decide (c.1 ≤ 0xFFF) && c.2 != unlistedByte font c.1

/-- The canonical form. -/
def Memory.wf (font : Font) (m : Memory) : Bool := Memory.rising 0 m && m.all (Memory.cellOk font)

/-- R35: every address of the span exists; computed on unbounded naturals. -/
def inBounds (a len : Nat) : Bool := decide (len = 0) || decide (a + len - 1 ≤ 0xFFF)

end Sys2Proof.Machine
end

