-- ==== Sys2Proof/Machine/State.lean ====
section
/-! DEFINITION. The state of the CORE (`10_state.md`), its fault kinds, the refusals, and the state after RESET. -/

namespace Sys2Proof.Machine

/-- The execution-time faults (R17, R141). A STEP that raises one records it in FAULT and changes nothing else
(R142), so it answers a next state: no transaction of this model ends in `Host.Outcome.fault` (log entry 4). -/
inductive Fault where
  /-- Raised by CALL with SP = 16 (R72). Safe: the spec says what the faulting STEP leaves. -/
  | stackOverflow
  /-- Raised by RET with SP = 0 (R70). Safe: the spec says what the faulting STEP leaves. -/
  | stackUnderflow
  /-- Raised by a fetch, DRW, LD B, LD [I] or LD Vx, [I] whose span runs past 0xFFF (R35). Safe: the spec says what
  the faulting STEP leaves. -/
  | outOfBounds
  deriving DecidableEq, Repr

/-- What the model does not admit. -/
inductive Refusal where
  /-- Given by `exec`'s arm of an instruction that has no meaning yet. Safe: the step stops. No arm gives it. -/
  | notModelled (mnemonic : String)
  /-- Given by the KEY transaction whose index is 16 or more: "not admitted" (R156). Safe: the spec refuses it. -/
  | keyIndexNotAdmitted
  /-- Given by every transaction but RESET before the first RESET: "not admitted" (R43, R171). Safe: the spec refuses it. -/
  | notYetReset
  deriving DecidableEq, Repr

/-- The whole state of the CORE (`10_state.md`), with two fields that are the model's own: `font` and `draws`. -/
structure State where
  /-- V[0..15], the general registers (R10); V[15] is VF (R11). -/
  v : Vector Byte 16
  /-- I, the address register (R13). -/
  i : Word
  /-- pc, the address of the next instruction to fetch (R12). -/
  pc : Word
  /-- SP, the number of occupied stack slots, 0 to 16 (R14). -/
  sp : Fin 17
  /-- STACK[0..15] (R14). -/
  stack : Vector Word 16
  /-- DT, the delay timer (R15). -/
  dt : Byte
  /-- ST, the sound timer (R15). -/
  st : Byte
  /-- KEYS, bit k set iff key k is pressed (R16). -/
  keys : Word
  /-- FB, the framebuffer (R18). -/
  fb : Framebuffer
  /-- MEM, as the bytes that differ from the RESET contents (R19, R30). -/
  mem : Memory
  /-- FAULT, `none` for NONE (R17). -/
  fault : Option Fault
  /-- FONT, the parameter RESET was given (R4, R19, R153); no transaction but RESET changes it (log entry 2). -/
  font : Font
  /-- How many bytes RND has taken from the random source (R133); not state of the CORE (log entry 3). -/
  draws : Nat
  deriving DecidableEq, Repr

/-- Every piece of state at its reset value (R23, R170), for the parameter FONT; `draws` is the random source's
place, which no rule resets. -/
def State.resetWith (font : Font) (draws : Nat) : State where
  v := Vector.replicate 16 0
  i := 0
  pc := BitVec.ofNat 16 Config.progBase
  sp := 0
  stack := Vector.replicate 16 0
  dt := 0
  st := 0
  keys := 0
  fb := blankFb
  mem := []
  fault := none
  font := font
  draws := draws

/-- The machine right after RESET (R23, R170), with FONT at its default (log entry 2) and no byte drawn yet
(log entry 3). -/
def State.reset : State := State.resetWith defaultFont 0

end Sys2Proof.Machine
end

