-- ==== Sys2Proof/Machine/Ops.lean ====
section
/-! DEFINITION. The named operations every meaning is made of: registers, pc, the stack, spans of memory, the fetch,
and raising a fault. -/

namespace Sys2Proof.Machine

/-- What `exec` and `step` answer. -/
abbrev Result := Host.Outcome State Fault Refusal

/-- `V[r]` (R7). -/
def State.reg (s : State) (r : Nibble) : Byte := s.v[r.toNat]'(r.isLt)

/-- `V[r] <- b` (R7). -/
def State.setReg (s : State) (r : Nibble) (b : Byte) : State := { s with v := s.v.set r.toNat b r.isLt }

/-- FLAG_REG, the index of VF (R4, R11). -/
def vf : Nibble := 15

/-- `I <- w` (R7). -/
def State.setI (s : State) (w : Word) : State := { s with i := w }

/-- `pc <- target` (R7). -/
def State.setPc (s : State) (target : Word) : State := { s with pc := target }

/-- `pc <- (pc + 2) mod 2^16`: after every fetch (R55), and once more by a taken skip. -/
def State.advance (s : State) : State := { s with pc := s.pc + 2 }

/-- `pc <- (pc - 2) mod 2^16`: LD Vx, K with no key pressed (R122). -/
def State.rewind (s : State) : State := { s with pc := s.pc - 2 }

/-- A skip: `if c: pc <- (pc + 2) mod 2^16` (R74). -/
def State.skipIf (s : State) (c : Bool) : State := if c then s.advance else s

/-- `raise Fault(k)` (R7, R142), the one way a fault is taken: the state `s` from before the STEP began, with the
kind recorded in FAULT and nothing else changed. There is no handler and no return from it (R140, R145): only RESET
clears FAULT (R143). -/
def raiseFault (k : Fault) (s : State) : Result := .next { s with fault := some k }

/-- The end of a STEP from `s` (R55): the state its execute phase reached, or the fault it raised. -/
def conclude (s : State) : Except Fault State → Result
  | .ok t => .next t
  | .error k => raiseFault k s

/-- FAULT's code (R141): the status a STEP returns (R154). -/
def faultCode : Option Fault → Nat
  | none => 0
  | some .stackOverflow => 1
  | some .stackUnderflow => 2
  | some .outOfBounds => 3

/-- `MemRead(a, 1)` (R7). -/
def State.memRead (s : State) (a : Nat) : Byte := Memory.read s.font s.mem a

/-- The bytes of a span, checked whole before any is read (R35). -/
def State.readSpan (s : State) (a len : Nat) : Except Fault (List Byte) :=
  if inBounds a len then .ok ((List.range len).map fun k => s.memRead (a + k)) else .error .outOfBounds

/-- Stores bytes at consecutive addresses, unchecked. -/
def State.storeBytes (s : State) (a : Nat) (bytes : List Byte) : State :=
  { s with mem := Memory.writeList s.font s.mem a bytes }

/-- Stores the bytes of a span, checked whole before any is written (R35). -/
def State.writeSpan (s : State) (a : Nat) (bytes : List Byte) : Except Fault State :=
  if inBounds a bytes.length then .ok (s.storeBytes a bytes) else .error .outOfBounds

/-- The fetch of a STEP (R33): the two bytes at pc and pc + 1, big-endian (R32), at any pc, odd or even. -/
def State.fetch (s : State) : Except Fault Word :=
  if inBounds s.pc.toNat 2 then .ok (bigEndian (s.memRead s.pc.toNat) (s.memRead (s.pc.toNat + 1)))
  else .error .outOfBounds

/-- Pushes a return address (R72), or STACK_OVERFLOW with SP = 16. -/
def State.push (s : State) (w : Word) : Except Fault State :=
  if h : s.sp.val < 16 then
    .ok { s with stack := s.stack.set s.sp.val w h, sp := ⟨s.sp.val + 1, by omega⟩ }
  else .error .stackOverflow

/-- Pops a return address (R70), or STACK_UNDERFLOW with SP = 0; the slot is not cleared (R14). -/
def State.pop (s : State) : Except Fault (Word × State) :=
  if h : s.sp.val = 0 then .error .stackUnderflow
  else .ok (s.stack[s.sp.val - 1]'(by have := s.sp.isLt; omega), { s with sp := ⟨s.sp.val - 1, by have := s.sp.isLt; omega⟩ })

/-- Loads bytes into consecutive registers from `V[r]` on (R105). -/
def State.loadRegs (s : State) (r : Nat) : List Byte → State
  | [] => s
  | b :: bs => State.loadRegs (s.setReg (BitVec.ofNat 4 r) b) (r + 1) bs

/-- `Pressed(k)` for a key index taken from a register (R123): false for an index of 16 or more. -/
def State.pressed (s : State) (k : Byte) : Bool := decide (k.toNat ≤ 15) && s.keys.getLsbD k.toNat

/-- The least k in 0 to 15 with `KEYS[k] = 1`, if a key is pressed (R122). -/
def State.leastKey (s : State) : Option Nat := (List.range 16).find? fun k => s.keys.getLsbD k

end Sys2Proof.Machine
end

