-- ==== Sys2Proof/Machine/Flags.lean ====
section
/-! DEFINITION. The values VF takes (R11, R91), and the order in which result and flag are written (R92). -/

namespace Sys2Proof.Machine

/-- A flag as VF holds it: 1 or 0. -/
def flagByte (c : Bool) : Byte := if c then 1 else 0

/-- The carry of `a + b` (R86): the exact sum exceeds 255. -/
def carryOf (a b : Byte) : Bool := decide (a.toNat + b.toNat > 255)

/-- The not-borrow of `a - b` (R87, R91): the subtraction does not underflow. -/
def notBorrow (a b : Byte) : Bool := decide (a.toNat ≥ b.toNat)

/-- `a & 1`, the bit SHR shifts out (R88). -/
def lowBit (a : Byte) : Bool := a.getLsbD 0

/-- `(a >> 7) & 1`, the bit SHL shifts out (R90). -/
def highBit (a : Byte) : Bool := a.getLsbD 7

/-- The result is written to `V[x]`, then the flag to VF (R92): with x = 15 VF ends holding the flag. -/
def State.setResultFlag (s : State) (x : Nibble) (r : Byte) (c : Bool) : State :=
  (s.setReg x r).setReg vf (flagByte c)

end Sys2Proof.Machine
end

