-- ==== Sys2Proof/Machine/Operands.lean ====
section
/-! DEFINITION. How operands become values (R52): immediates are unsigned, never sign-extended, scaled or shifted. -/

namespace Sys2Proof.Machine

/-- `zext_16(nnn)` (R6, R52): an address field as `pc` or `I` takes it. -/
def zextAddr (nnn : Addr) : Word := nnn.setWidth 16

/-- A byte register as a 16-bit addend (R73, R101). -/
def zextByte (b : Byte) : Word := b.setWidth 16

/-- The address of the glyph of a register's whole value (R102): not reduced to its low nibble. -/
def glyphAddr (b : Byte) : Word := BitVec.ofNat 16 (b.toNat * 5)

/-- The hundreds, tens and ones digits of a byte, each a byte 0 to 9 (R103). -/
def bcdDigits (b : Byte) : List Byte :=
  [BitVec.ofNat 8 (b.toNat / 100), BitVec.ofNat 8 (b.toNat / 10 % 10), BitVec.ofNat 8 (b.toNat % 10)]

/-- The registers `V[0..x]`, in order (R104). -/
def State.firstRegs (s : State) (x : Nibble) : List Byte := s.v.toList.take (x.toNat + 1)

end Sys2Proof.Machine
end

