-- ==== Sys2Proof/Machine/Alu.lean ====
section
/-! DEFINITION. Register arithmetic and logic (`41_alu.md`): operands are read first, the result is written to `V[x]`,
then a flag-producing instruction writes VF (R92); all arithmetic wraps modulo 256 (R91). -/

namespace Sys2Proof.Machine

/-- LD Vx, kk (R80). -/
def execLdImm (x : Nibble) (kk : Byte) (s : State) : Result := .next (s.advance.setReg x kk)

/-- ADD Vx, kk (R81): no flag. -/
def execAddImm (x : Nibble) (kk : Byte) (s : State) : Result := .next (s.advance.setReg x (s.reg x + kk))

/-- LD Vx, Vy (R82). -/
def execLdReg (x y : Nibble) (s : State) : Result := .next (s.advance.setReg x (s.reg y))

/-- OR Vx, Vy (R83): no flag. -/
def execOrReg (x y : Nibble) (s : State) : Result := .next (s.advance.setReg x (s.reg x ||| s.reg y))

/-- AND Vx, Vy (R84): no flag. -/
def execAndReg (x y : Nibble) (s : State) : Result := .next (s.advance.setReg x (s.reg x &&& s.reg y))

/-- XOR Vx, Vy (R85): no flag. -/
def execXorReg (x y : Nibble) (s : State) : Result := .next (s.advance.setReg x (s.reg x ^^^ s.reg y))

/-- ADD Vx, Vy (R86): VF is the carry. -/
def execAddReg (x y : Nibble) (s : State) : Result :=
  .next (s.advance.setResultFlag x (s.reg x + s.reg y) (carryOf (s.reg x) (s.reg y)))

/-- SUB Vx, Vy (R87): VF is the not-borrow of `Vx - Vy`. -/
def execSub (x y : Nibble) (s : State) : Result :=
  .next (s.advance.setResultFlag x (s.reg x - s.reg y) (notBorrow (s.reg x) (s.reg y)))

/-- SHR Vx (R88): VF is the old bit 0; the y nibble is ignored. -/
def execShr (x _y : Nibble) (s : State) : Result :=
  .next (s.advance.setResultFlag x (s.reg x >>> 1) (lowBit (s.reg x)))

/-- SUBN Vx, Vy (R89): VF is the not-borrow of `Vy - Vx`. -/
def execSubn (x y : Nibble) (s : State) : Result :=
  .next (s.advance.setResultFlag x (s.reg y - s.reg x) (notBorrow (s.reg y) (s.reg x)))

/-- SHL Vx (R90): VF is the old bit 7; the y nibble is ignored. -/
def execShl (x _y : Nibble) (s : State) : Result :=
  .next (s.advance.setResultFlag x (s.reg x <<< 1) (highBit (s.reg x)))

end Sys2Proof.Machine
end

