-- ==== Sys2Proof/Machine/Control.lean ====
section
/-! DEFINITION. Control transfer (`40_control.md`) and UNKNOWN (R57). A meaning takes the state from before its STEP:
`s.advance` is the state its rule starts from, with pc already past the word (R8, R55). -/

namespace Sys2Proof.Machine

/-- RET (R70): `SP <- SP - 1; pc <- STACK[SP]`. -/
def execRet (s : State) : Result :=
  conclude s (s.advance.pop.map fun (target, t) => t.setPc target)

/-- JP nnn (R71): `pc <- zext_16(nnn)`, used exactly. -/
def execJp (nnn : Addr) (s : State) : Result := .next (s.advance.setPc (zextAddr nnn))

/-- CALL nnn (R72): pushes the pc after the CALL, then `pc <- zext_16(nnn)`. -/
def execCall (nnn : Addr) (s : State) : Result :=
  conclude s ((s.advance.push s.advance.pc).map fun t => t.setPc (zextAddr nnn))

/-- JP V0, nnn (R73): `pc <- (zext_16(nnn) + V[0]) mod 2^16`, always V0. -/
def execJpV0 (nnn : Addr) (s : State) : Result :=
  .next (s.advance.setPc (zextAddr nnn + zextByte (s.reg 0)))

/-- SE Vx, kk (R74). -/
def execSeImm (x : Nibble) (kk : Byte) (s : State) : Result := .next (s.advance.skipIf (s.reg x == kk))

/-- SNE Vx, kk (R75). -/
def execSneImm (x : Nibble) (kk : Byte) (s : State) : Result := .next (s.advance.skipIf (s.reg x != kk))

/-- SE Vx, Vy (R76). -/
def execSeReg (x y : Nibble) (s : State) : Result := .next (s.advance.skipIf (s.reg x == s.reg y))

/-- SNE Vx, Vy (R77). -/
def execSneReg (x y : Nibble) (s : State) : Result := .next (s.advance.skipIf (s.reg x != s.reg y))

/-- UNKNOWN (R57): only the fetch's advance of pc. -/
def execUnknown (_op : Word) (s : State) : Result := .next s.advance

end Sys2Proof.Machine
end

