-- ==== Sys2Proof/Machine/Display.lean ====
section
/-! DEFINITION. The display (`43_display.md`): CLS, and DRW over the sprite-blit XOR engine. -/

namespace Sys2Proof.Machine

/-- What the blit engine has done so far: the framebuffer, and whether a set pixel has received a 1 bit. -/
structure Blit where
  fb : Framebuffer
  collision : Bool
  deriving DecidableEq, Repr

/-- `(b >> (7 - col)) & 1` (R111): bit 7 of a sprite byte is column 0. -/
def spriteBit (b : Byte) (col : Nat) : Bool := b.getLsbD (7 - col)

/-- `(V[x] + col) mod 64`, on naturals (R112). -/
def wrapX (x0 : Byte) (col : Nat) : Fin 64 := Fin.ofNat 64 (x0.toNat + col)

/-- `(V[y] + row) mod 32`, on naturals (R112). -/
def wrapY (y0 : Byte) (row : Nat) : Fin 32 := Fin.ofNat 32 (y0.toNat + row)

/-- One column of a sprite row (R111): a 1 bit toggles its pixel, and collides if the pixel was 1; a 0 bit touches
nothing. -/
def blitBit (x0 y0 : Byte) (row : Nat) (b : Byte) (w : Blit) (col : Nat) : Blit :=
  if spriteBit b col then
    { fb := flipPixel w.fb (wrapX x0 col) (wrapY y0 row)
      collision := w.collision || pixelAt w.fb (wrapX x0 col) (wrapY y0 row) }
  else w

/-- The 8 columns of a sprite row, left to right (R111). -/
def blitRow (x0 y0 : Byte) (row : Nat) (b : Byte) (w : Blit) : Blit := (List.range 8).foldl (blitBit x0 y0 row b) w

/-- The rows of a sprite from `row` on, one byte each (R111). -/
def blitRows (x0 y0 : Byte) (row : Nat) : List Byte → Blit → Blit
  | [], w => w
  | b :: bs, w => blitRows x0 y0 (row + 1) bs (blitRow x0 y0 row b w)

/-- A sprite drawn on a framebuffer, no collision yet. -/
def blitSprite (x0 y0 : Byte) (sprite : List Byte) (fb : Framebuffer) : Blit :=
  blitRows x0 y0 0 sprite { fb := fb, collision := false }

/-- The framebuffer a blit leaves, then VF (R111). -/
def State.setBlit (s : State) (w : Blit) : State := { s with fb := w.fb }.setReg vf (flagByte w.collision)

/-- CLS (R110): every pixel 0. -/
def execCls (s : State) : Result := .next { s.advance with fb := blankFb }

/-- DRW Vx, Vy, n (R111): n rows from I at (V[x], V[y]), VF is the collision. n = 0 reads nothing, cannot fault and
sets VF to 0. -/
def execDrw (x y n : Nibble) (s : State) : Result :=
  conclude s ((s.readSpan s.i.toNat n.toNat).map fun sprite =>
    s.advance.setBlit (blitSprite (s.reg x) (s.reg y) sprite s.fb))

end Sys2Proof.Machine
end

