-- ==== Sys2Proof/Machine/IndexMemory.lean ====
section
/-! DEFINITION. The address register and memory transfers (`42_index_memory.md`). Spans start at I, are checked whole
before any effect (R35), and leave I unchanged. -/

namespace Sys2Proof.Machine

/-- LD I, nnn (R100). -/
def execLdI (nnn : Addr) (s : State) : Result := .next (s.advance.setI (zextAddr nnn))

/-- ADD I, Vx (R101): wraps modulo 2^16, no flag. -/
def execAddI (x : Nibble) (s : State) : Result := .next (s.advance.setI (s.i + zextByte (s.reg x)))

/-- LD F, Vx (R102): `I <- V[x] * 5`. -/
def execLdF (x : Nibble) (s : State) : Result := .next (s.advance.setI (glyphAddr (s.reg x)))

/-- LD B, Vx (R103): hundreds, tens and ones at I, I + 1, I + 2. -/
def execLdB (x : Nibble) (s : State) : Result := conclude s (s.advance.writeSpan s.i.toNat (bcdDigits (s.reg x)))

/-- LD [I], Vx (R104): `V[0..x]` at I, I + 1, .... -/
def execLdMemVx (x : Nibble) (s : State) : Result := conclude s (s.advance.writeSpan s.i.toNat (s.firstRegs x))

/-- LD Vx, [I] (R105): `V[0..x]` from I, I + 1, .... -/
def execLdVxMem (x : Nibble) (s : State) : Result :=
  conclude s ((s.readSpan s.i.toNat (x.toNat + 1)).map fun bytes => s.advance.loadRegs 0 bytes)

end Sys2Proof.Machine
end

