-- ==== Sys2Proof/Machine/Keyboard.lean ====
section
/-! DEFINITION. The keyboard instructions (`44_keyboard.md`). KEYS is read as it stands; only the KEY transaction
writes it (R16, R156). -/

namespace Sys2Proof.Machine

/-- SKP Vx (R120). -/
def execSkp (x : Nibble) (s : State) : Result := .next (s.advance.skipIf (s.pressed (s.reg x)))

/-- SKNP Vx (R121). -/
def execSknp (x : Nibble) (s : State) : Result := .next (s.advance.skipIf (!s.pressed (s.reg x)))

/-- LD Vx, K (R122): with no key pressed the fetch's advance is undone, so the same word is fetched again; else V[x]
takes the least pressed key. -/
def execLdVxK (x : Nibble) (s : State) : Result :=
  match s.leastKey with
  | none => .next s.advance.rewind
  | some k => .next (s.advance.setReg x (BitVec.ofNat 8 k))

end Sys2Proof.Machine
end

