-- ==== Sys2Proof/Machine/TimersRandom.lean ====
section
/-! DEFINITION. Timer access and the random byte (`45_timers_random.md`). A STEP never decrements a timer (R15). -/

namespace Sys2Proof.Machine

/-- LD Vx, DT (R130). -/
def execLdVxDt (x : Nibble) (s : State) : Result := .next (s.advance.setReg x s.dt)

/-- LD DT, Vx (R131). -/
def execLdDtVx (x : Nibble) (s : State) : Result := .next { s.advance with dt := s.reg x }

/-- LD ST, Vx (R132). -/
def execLdStVx (x : Nibble) (s : State) : Result := .next { s.advance with st := s.reg x }

/-- RND Vx, kk (R133) when the random source supplies `r`: one byte is consumed. -/
def rndWith (r : Byte) (x : Nibble) (kk : Byte) (s : State) : Result :=
  .next { s.advance.setReg x (r &&& kk) with draws := s.draws + 1 }

/-- RND Vx, kk (R133): the byte is the source's next one, a free value (log entry 3). -/
def execRnd (x : Nibble) (kk : Byte) (s : State) : Result := rndWith (Config.randByte s.draws) x kk s

end Sys2Proof.Machine
end

