-- ==== Sys2Proof/Machine/Loader.lean ====
section
/-! DEFINITION. Placing one instruction where the next STEP fetches, which stands for the LOAD of a program (R172,
R173, log entry 10). -/

namespace Sys2Proof.Machine

/-- Where the next STEP can fetch: pc, or the reset entry 0x200 where pc leaves no room for a word (R33). -/
def fetchPlace (s : State) : Word := if inBounds s.pc.toNat 2 then s.pc else BitVec.ofNat 16 Config.progBase

/-- `s` with a word stored at the fetch place, big-endian (R32), and FAULT clear, since a faulted CORE fetches
nothing (R143). -/
def placeWord (s : State) (op : Word) : State :=
  { s.storeBytes (fetchPlace s).toNat [highByte op, lowByte op] with pc := fetchPlace s, fault := none }

end Sys2Proof.Machine
end

