-- ==== Sys2Proof/Machine/Step.lean ====
section
/-! DEFINITION. The STEP transaction (R55), and an instruction placed for the next STEP. -/

namespace Sys2Proof.Machine

/-- STEP (R55): a faulted CORE changes nothing (R143); a fetch that runs past 0xFFF faults before decoding (R33);
else the decoded instruction is run. -/
def step (s : State) : Host.Outcome State Fault Refusal :=
  match s.fault with
  | some _ => .next s
  | none =>
    match s.fetch with
    | .error k => raiseFault k s
    | .ok op => exec (decode op) s

/-- `s` with the instruction numbered as the opcode table numbers it stored where `step` fetches next (log entry 10). -/
def State.withFetchWord (s : State) (nbits w : Nat) : State := placeWord s (tableWord nbits w)

end Sys2Proof.Machine
end

