-- ==== Sys2Proof/Machine/Transactions.lean ====
section
/-! DEFINITION. The host's transactions (R5, R153): RESET, LOAD, STEP, TICK, KEY and FB_READ, each atomic (R37), their
outputs, and a run of any list of them in the host's order (log entry 6). -/

namespace Sys2Proof.Machine

/-- A counter of the timer unit: one less, and 0 stays 0 (R150). -/
def countDown (c : Byte) : Byte := if c = 0 then 0 else c - 1

/-- What TICK leaves (R150): both timers count down, independently, whatever FAULT holds. -/
def tick (s : State) : State := { s with dt := countDown s.dt, st := countDown s.st }

/-- TICK's output (R152): 1 on exactly the TICKs that take ST from 1 to 0. -/
def toneEdge (s : State) : Bool := s.st == 1

/-- KEYS after KEY(index, pressed) with an index 0 to 15 (R156). -/
def keysAfter (keys : Word) (index : Fin 16) (pressed : Bool) : Word :=
  if pressed then keys ||| (1#16 <<< index.val) else keys &&& ~~~(1#16 <<< index.val)

/-- KEY (R156): one bit of KEYS, nothing else. -/
def setKey (s : State) (index : Fin 16) (pressed : Bool) : State := { s with keys := keysAfter s.keys index pressed }

/-- LOAD (R172): the image at 0x200 and nothing else changes, or `none` for LOAD_ERROR when it is too long. -/
def loadProgram (s : State) (bytes : List Byte) : Option State :=
  if bytes.length > Config.memSize - Config.progBase then none else some (s.storeBytes Config.progBase bytes)

/-- What the host can ask for (R153). RESET takes the parameter FONT, KEY an index the host may choose out of range. -/
inductive Transaction where
  | reset (font : Font)
  | load (bytes : List Byte)
  | step
  | tick
  | key (index : Nat) (pressed : Bool)
  | fbRead
  deriving DecidableEq, Repr

/-- A transaction's output (R153). -/
inductive Reply where
  /-- RESET and KEY have none. -/
  | nothing
  /-- LOAD: OK (R172). -/
  | loadOk
  /-- LOAD: LOAD_ERROR (R172). -/
  | loadError
  /-- STEP: the code of FAULT after it (R154). -/
  | status (code : Nat)
  /-- TICK: the tone edge (R152). -/
  | tone (edge : Bool)
  /-- FB_READ: the snapshot (R157). -/
  | snapshot (bits : Vector Bool 2048)
  deriving DecidableEq, Repr

/-- STEP with its output (R154). -/
def stepReply (s : State) : Host.Outcome (State × Reply) Fault Refusal :=
  match step s with
  | .next t => .next (t, .status (faultCode t.fault))
  | .fault k => .fault k
  | .refused r => .refused r

/-- LOAD with its output: a LOAD_ERROR changes nothing (R172). -/
def loadReply (s : State) (bytes : List Byte) : State × Reply :=
  match loadProgram s bytes with
  | some t => (t, .loadOk)
  | none => (s, .loadError)

/-- KEY with its refusal of an index of 16 or more (R156). -/
def keyReply (s : State) (index : Nat) (pressed : Bool) : Host.Outcome (State × Reply) Fault Refusal :=
  if h : index < 16 then .next (setKey s ⟨index, h⟩ pressed, .nothing) else .refused .keyIndexNotAdmitted

/-- The random source's place, which RESET does not move: the source is the host's, not state of the CORE (R20, R155,
log entry 3). -/
def drawsOf : Option State → Nat
  | none => 0
  | some s => s.draws

/-- One transaction. `none` is the CORE before its first RESET, whose state is undefined and which admits no other
transaction (R43, R171). -/
def transact (t : Transaction) (c : Option State) : Host.Outcome (State × Reply) Fault Refusal :=
  match t, c with
  | .reset font, c => .next (State.resetWith font (drawsOf c), .nothing)
  | .load _, none => .refused .notYetReset
  | .step, none => .refused .notYetReset
  | .tick, none => .refused .notYetReset
  | .key _ _, none => .refused .notYetReset
  | .fbRead, none => .refused .notYetReset
  | .load bytes, some s => .next (loadReply s bytes)
  | .step, some s => stepReply s
  | .tick, some s => .next (tick s, .tone (toneEdge s))
  | .key index pressed, some s => keyReply s index pressed
  | .fbRead, some s => .next (s, .snapshot (fbSnapshot s.fb))

/-- The CORE after a list of transactions in the host's order. A refused transaction is not admitted and leaves the
CORE as it was (R156). -/
def afterAll : List Transaction → Option State → Option State
  | [], c => c
  | t :: ts, c =>
    match transact t c with
    | .next (s, _) => afterAll ts (some s)
    | .fault _ => afterAll ts c
    | .refused _ => afterAll ts c

end Sys2Proof.Machine
end

