-- ==== Sys2Proof/Safety.lean ====
section
/-! DEFINITION. The terms claims are stated in: a healthy CORE, the invariant, and what one state leaves
unchanged from another. -/

namespace Sys2Proof.Machine

/-- No fault is recorded (R17): the CORE still executes. -/
def State.healthy (s : State) : Bool := s.fault == none

/-- The bounds of R24, `pc` at most 0x10FE and every STACK value at most 0x1000, and the canonical form of memory, which
is the model's own (log entry 8). That every register index is 0 to 15 and SP is 0 to 16 is in the types. -/
abbrev State.Inv (s : State) : Prop :=
  Memory.wf s.font s.mem = true ∧ s.pc.toNat ≤ 0x10FE ∧ ∀ j : Fin 16, s.stack[j].toNat ≤ 0x1000

/-- The parts of the state other than the general registers and pc. -/
inductive Part where
  | index
  | stackPointer
  | stackSlots
  | delayTimer
  | soundTimer
  | keyboard
  | pixels
  | memory
  | faultStatus
  | fontTable
  | randomPlace
  deriving DecidableEq, Repr

/-- `t` holds in a part what `s` holds there; of memory, every byte reads the same. -/
def samePart (s t : State) : Part → Prop
  | .index => t.i = s.i
  | .stackPointer => t.sp = s.sp
  | .stackSlots => t.stack = s.stack
  | .delayTimer => t.dt = s.dt
  | .soundTimer => t.st = s.st
  | .keyboard => t.keys = s.keys
  | .pixels => ∀ x y, pixelAt t.fb x y = pixelAt s.fb x y
  | .memory => ∀ a, t.memRead a = s.memRead a
  | .faultStatus => t.fault = s.fault
  | .fontTable => t.font = s.font
  | .randomPlace => t.draws = s.draws

/-- The frame of a step from `s` to `t`: every register but `regs` and every part but `parts` is unchanged. It says
nothing of pc. -/
def Frame (regs : List Nibble) (parts : List Part) (s t : State) : Prop :=
  (∀ r, r ∉ regs → t.reg r = s.reg r) ∧ ∀ p, p ∉ parts → samePart s t p

/-- Every byte outside `len` bytes from `lo` reads as before. -/
def MemoryOutside (lo len : Nat) (s t : State) : Prop :=
  ∀ a, (a < lo ∨ lo + len ≤ a) → t.memRead a = s.memRead a

/-- A step that writes `b` to `V[x]` and passes the word, and does nothing else. -/
def WritesOnly (x : Nibble) (b : Byte) (s t : State) : Prop :=
  t.pc = s.pc + 2 ∧ t.reg x = b ∧ Frame [x] [] s t

/-- A step that writes a result to `V[x]` and then a flag to VF (R92), passes the word, and does nothing else: with
x = 15 VF holds the flag. -/
def WritesFlagged (x : Nibble) (result flag : Nat) (s t : State) : Prop :=
  t.pc = s.pc + 2 ∧ (x ≠ 15 → (t.reg x).toNat = result) ∧ (t.reg 15).toNat = flag ∧ Frame [x, 15] [] s t

/-- A step that passes the word, and one word more if `c` holds (a skip), and does nothing else. -/
def SkipsWhen (c : Prop) (s t : State) : Prop :=
  (c → t.pc = s.pc + 4) ∧ (¬c → t.pc = s.pc + 2) ∧ Frame [] [] s t

/-- R111, R112: the sprite of DRW Vx, Vy, n has a 1 bit that lands on pixel (px, py). -/
def SpriteCovers (s : State) (x y n : Nibble) (px : Fin 64) (py : Fin 32) : Prop :=
  ∃ row col : Nat, row < n.toNat ∧ col < 8 ∧ (s.memRead (s.i.toNat + row)).getLsbD (7 - col) = true ∧
    ((s.reg x).toNat + col) % 64 = px.val ∧ ((s.reg y).toNat + row) % 32 = py.val

/-- The instruction whose word stands at pc (R32, R33), where pc leaves room for one. -/
def State.nextInstr (s : State) : Instr :=
  decode (BitVec.ofNat 16 ((s.memRead s.pc.toNat).toNat * 256 + (s.memRead (s.pc.toNat + 1)).toNat))

/-- R41: `t` holds the byte `b` at `a`, and every later STEP whose pc covers `a` fetches it, as the first byte of a word
or as the second. A later STEP starts from any healthy state `u` that still reads at `a` what `t` reads there; every
state with the memory and font of `t` is one. The word's other byte is what `u` holds. -/
def FetchedAfter (t : State) (a : Nat) (b : Byte) : Prop :=
  t.memRead a = b ∧ ∀ u : State, u.fault = none → u.memRead a = t.memRead a →
    (u.pc.toNat = a → a + 1 ≤ 0xFFF →
      step u = exec (decode (BitVec.ofNat 16 (b.toNat * 256 + (u.memRead (a + 1)).toNat))) u) ∧
    (u.pc.toNat + 1 = a → a ≤ 0xFFF →
      step u = exec (decode (BitVec.ofNat 16 ((u.memRead u.pc.toNat).toNat * 256 + b.toNat))) u)

/-- R141: the instruction accesses a span that runs past 0xFFF. -/
def SpanOverruns (i : Instr) (s : State) : Prop :=
  (∃ x y n, i = .drw x y n ∧ 1 ≤ n.toNat ∧ s.i.toNat + n.toNat - 1 > 0xFFF) ∨
  (∃ x, i = .ldB x ∧ s.i.toNat + 2 > 0xFFF) ∨
  (∃ x, i = .ldMemVx x ∧ s.i.toNat + x.toNat > 0xFFF) ∨
  (∃ x, i = .ldVxMem x ∧ s.i.toNat + x.toNat > 0xFFF)

/-- R10, R11: the registers an instruction may write. -/
def mayWriteReg : Instr → Nibble → Bool
  | .ldImm x _, r | .addImm x _, r | .ldReg x _, r | .orReg x _, r | .andReg x _, r | .xorReg x _, r
  | .rnd x _, r | .ldVxDt x, r | .ldVxK x, r => r == x
  | .addReg x _, r | .sub x _, r | .shr x _, r | .subn x _, r | .shl x _, r => r == x || r == 15
  | .drw _ _ _, r => r == 15
  | .ldVxMem x, r => decide (r.toNat ≤ x.toNat)
  | .cls, _ | .ret, _ | .jp _, _ | .call _, _ | .seImm _ _, _ | .sneImm _ _, _ | .seReg _ _, _ | .sneReg _ _, _
  | .ldI _, _ | .jpV0 _, _ | .skp _, _ | .sknp _, _ | .ldDtVx _, _ | .ldStVx _, _ | .addI _, _ | .ldF _, _
  | .ldB _, _ | .ldMemVx _, _ | .unknown _, _ => false

/-- R13 to R18, R22, R30: the parts of the state an instruction may write. -/
def mayWritePart : Instr → Part → Bool
  | .ldI _, p | .addI _, p | .ldF _, p => p == .index
  | .call _, p => p == .stackPointer || p == .stackSlots || p == .faultStatus
  | .ret, p => p == .stackPointer || p == .faultStatus
  | .ldDtVx _, p => p == .delayTimer
  | .ldStVx _, p => p == .soundTimer
  | .cls, p => p == .pixels
  | .drw _ _ _, p => p == .pixels || p == .faultStatus
  | .ldB _, p | .ldMemVx _, p => p == .memory || p == .faultStatus
  | .ldVxMem _, p => p == .faultStatus
  | .rnd _ _, p => p == .randomPlace
  | .jp _, _ | .seImm _ _, _ | .sneImm _ _, _ | .seReg _ _, _ | .sneReg _ _, _ | .ldImm _ _, _ | .addImm _ _, _
  | .ldReg _ _, _ | .orReg _ _, _ | .andReg _ _, _ | .xorReg _ _, _ | .addReg _ _, _ | .sub _ _, _ | .shr _ _, _
  | .subn _ _, _ | .shl _ _, _ | .jpV0 _, _ | .skp _, _ | .sknp _, _ | .ldVxDt _, _ | .ldVxK _, _
  | .unknown _, _ => false

/-- A transaction's outcome with FAULT put to `f` in the state it leaves. -/
def withFault (f : Option Fault) : Host.Outcome (State × Reply) Fault Refusal → Host.Outcome (State × Reply) Fault Refusal
  | .next (t, r) => .next ({ t with fault := f }, r)
  | .fault k => .fault k
  | .refused r => .refused r

/-- The transaction is a RESET. -/
def Transaction.isReset : Transaction → Bool
  | .reset _ => true
  | .load _ | .step | .tick | .key _ _ | .fbRead => false

end Sys2Proof.Machine
end

