-- ==== Sys2Proof/Certificates/Slice0/Obligations.lean ====
section
/-! DEFINITION. What is claimed of the model, one definition a statement, taken from the spec's numbered rules. A
statement about an instruction says that `exec` answers a next state, what the instruction wrote, and its frame. -/

open Sys2Proof Sys2Proof.Machine

/-! ### Encoding -/

/-- Words written out bit by bit from R51 and R53, at least one of each family, decode to what they stand for. The
patterns are general knowledge by the spec's own mark (log entry 1). -/
def Obligations.SpelledWordsDecode : Prop :=
  decode 0b0000000011101110#16 = .ret ∧
  decode 0b0010011100100111#16 = .call 0x727 ∧
  decode 0b1001000100100000#16 = .sneReg 1 2 ∧
  decode 0b0111000111111111#16 = .addImm 1 0xFF ∧
  decode 0b1000000100100111#16 = .subn 1 2 ∧
  decode 0b1000111100001110#16 = .shl 15 0 ∧
  decode 0b1111010100110011#16 = .ldB 5 ∧
  decode 0b1111001001100101#16 = .ldVxMem 2 ∧
  decode 0b1101000000010101#16 = .drw 0 1 5 ∧
  decode 0b1110000110100001#16 = .sknp 1 ∧
  decode 0b1111001100001010#16 = .ldVxK 3 ∧
  decode 0b1111001000011000#16 = .ldStVx 2 ∧
  decode 0b1100000100001111#16 = .rnd 1 0x0F ∧
  decode 0b0101000100100011#16 = .unknown 0x5123

/-- Every well-formed instruction, with every operand at every value its encoding admits, is what its word decodes
to. The patterns are general knowledge by the spec's own mark (log entry 1), and that SHR, SHL and UNKNOWN keep the
bits they ignore is the model's choice (log entry 11). -/
def Obligations.DecodeInvertsEncode : Prop :=
  ∀ i : Instr, i.wellFormed = true → decode (encode i) = i

/-- Every word is the encoding of the well-formed instruction it decodes to: no bit of a word is dropped, and no two
words decode to one instruction. For the words of UNKNOWN, of SHR and of SHL this is the model's choice (log entry 11):
R54 has one variant UNKNOWN with no operand, where the model's carries its word, and R88 and R90 ignore the y nibble
the model keeps. The patterns are general knowledge by the spec's own mark (log entry 1). -/
def Obligations.EncodeInvertsDecode : Prop :=
  ∀ op : Word, (decode op).wellFormed = true ∧ encode (decode op) = op

/-- R54 read through the opcode table: a word decodes to the row whose mask and match it meets, to UNKNOWN exactly
when it meets none, and it meets at most one. The patterns are general knowledge by the spec's own mark (log entry 1),
and that UNKNOWN carries its word is the model's choice (log entry 11). -/
def Obligations.DecoderFollowsTheTable : Prop :=
  ∀ op : Word,
    (∀ r ∈ opcodeRows, op &&& r.mask = r.pattern → mnemonic (decode op) = r.mnemonic) ∧
    ((∀ r ∈ opcodeRows, op &&& r.mask ≠ r.pattern) ↔ decode op = .unknown op) ∧
    ∀ r ∈ opcodeRows, ∀ q ∈ opcodeRows, op &&& r.mask = r.pattern → op &&& q.mask = q.pattern → r = q

/-! ### The step cycle and faults -/

/-- R55: where the word at pc is there to fetch, a STEP of a healthy CORE is `exec` of the instruction decoded from
it, big-endian (R32). The advance of pc past the word is inside `exec` (log entry 5), and the step adds nothing. -/
def Obligations.StepRunsTheDecodedInstruction : Prop :=
  ∀ s : State, s.fault = none → s.pc.toNat ≤ 0xFFE → step s = exec s.nextInstr s

/-- R33: the fetch reads MEM[pc] and MEM[pc + 1] at any pc, odd or even; with pc above 0xFFE the STEP raises
OUT_OF_BOUNDS with no other effect. -/
def Obligations.FetchReadsTwoBytesOrFaults : Prop :=
  ∀ s : State,
    (s.pc.toNat + 1 ≤ 0xFFF →
      s.fetch = .ok (BitVec.ofNat 16 ((s.memRead s.pc.toNat).toNat * 256 + (s.memRead (s.pc.toNat + 1)).toNat))) ∧
    (s.pc.toNat + 1 > 0xFFF → s.fault = none → step s = .next { s with fault := some .outOfBounds })

/-- No STEP and no instruction stops the model with a fault or a refusal. -/
def Obligations.StepAlwaysAnswersNext : Prop :=
  (∀ s : State, ∃ t, step s = .next t) ∧ ∀ (i : Instr) (s : State), ∃ t, exec i s = .next t

/-- R142: a STEP that raises a fault leaves the whole state as before, but for FAULT. -/
def Obligations.FaultEntryIsPrecise : Prop :=
  ∀ (s t : State) (k : Fault), s.fault = none → step s = .next t → t.fault = some k → t = { s with fault := some k }

/-- R141: each fault is raised exactly under its condition, by the instruction the rule names, and has its code. -/
def Obligations.FaultsHaveExactlyTheirCauses : Prop :=
  (∀ s : State, s.fault = none → ∃ t, step s = .next t ∧
    (t.fault = some .stackOverflow ↔
      s.pc.toNat + 1 ≤ 0xFFF ∧ (∃ nnn, s.nextInstr = .call nnn) ∧ s.sp.val = 16) ∧
    (t.fault = some .stackUnderflow ↔ s.pc.toNat + 1 ≤ 0xFFF ∧ s.nextInstr = .ret ∧ s.sp.val = 0) ∧
    (t.fault = some .outOfBounds ↔
      s.pc.toNat + 1 > 0xFFF ∨ (s.pc.toNat + 1 ≤ 0xFFF ∧ SpanOverruns s.nextInstr s))) ∧
  faultCode none = 0 ∧ faultCode (some .stackOverflow) = 1 ∧ faultCode (some .stackUnderflow) = 2 ∧
  faultCode (some .outOfBounds) = 3

/-- R143: a faulted CORE stays faulted until RESET: a STEP changes nothing and returns the recorded code, no other
transaction clears FAULT, and LOAD, TICK, KEY and FB_READ do what they do on a healthy CORE. -/
def Obligations.FaultedCoreStaysFaulted : Prop :=
  ∀ (s : State) (k : Fault), s.fault = some k →
    transact .step (some s) = .next (s, .status (faultCode (some k))) ∧
    (∀ tr t r, tr.isReset = false → transact tr (some s) = .next (t, r) → t.fault = some k) ∧
    (∀ font, ∃ t, transact (.reset font) (some s) = .next (t, .nothing) ∧ t.fault = none) ∧
    ∀ tr, tr.isReset = false → tr ≠ .step →
      transact tr (some s) = withFault (some k) (transact tr (some { s with fault := none }))

/-- R154: the STEP transaction returns the code of FAULT after it. -/
def Obligations.StepReturnsTheFaultCode : Prop :=
  ∀ s : State, ∃ t code, transact .step (some s) = .next (t, .status code) ∧ step s = .next t ∧
    (t.fault = none → code = 0) ∧ (t.fault = some .stackOverflow → code = 1) ∧
    (t.fault = some .stackUnderflow → code = 2) ∧ (t.fault = some .outOfBounds → code = 3) ∧
    ∀ k, s.fault = some k → t.fault = some k

/-- An instruction placed by `withFetchWord` is the one the very next STEP runs, whatever state it was placed in. How
a word is placed is the model's choice (log entry 10). -/
def Obligations.PlacedWordRunsNext : Prop :=
  ∀ (s : State) (w : Nat),
    step (s.withFetchWord 16 w) = exec (decode (BitVec.ofNat 16 w)) (s.withFetchWord 16 w)

/-! ### Reset and invariants -/

/-- R23, R170: RESET leaves every piece of state at its reset value, whatever the state before, with no output;
`State.reset` is such a state, for the font it holds. -/
def Obligations.ResetFixesEverything : Prop :=
  (∀ (font : Font) (c : Option State), ∃ t, transact (.reset font) c = .next (t, .nothing) ∧
    (∀ r, t.reg r = 0) ∧ t.i = 0 ∧ t.pc = 0x200 ∧ t.sp.val = 0 ∧ (∀ j : Fin 16, t.stack[j] = 0) ∧ t.dt = 0 ∧
    t.st = 0 ∧ t.keys = 0 ∧ (∀ x y, pixelAt t.fb x y = false) ∧ (∀ a : Fin 80, t.memRead a = font[a]) ∧
    (∀ a, 80 ≤ a → a ≤ 0xFFF → t.memRead a = 0) ∧ t.fault = none) ∧
  transact (.reset State.reset.font) none = .next (State.reset, .nothing)

/-- The invariant holds right after RESET, for every font. Its bounds on pc and STACK are R24's, which the spec marks as
derived; its memory clause, the canonical form, is the model's own choice (log entry 8). -/
def Obligations.InvariantHoldsAfterReset : Prop :=
  (∀ (font : Font) (draws : Nat), (State.resetWith font draws).Inv) ∧ State.reset.Inv

/-- Every STEP keeps the invariant, from every state that has it. Its bounds on pc and STACK are R24's, which the spec
marks as derived ("The following hold in every state reachable from RESET by any sequence of transactions"); its memory
clause, the canonical form, is the model's own choice (log entry 8). -/
def Obligations.StepKeepsTheInvariant : Prop :=
  ∀ s t : State, s.Inv → step s = .next t → t.Inv

/-- Every transaction keeps the invariant, from every state that has it, reachable or not; and RESET, the one
transaction admitted before any other (R171), gives a state that has it. The bounds on pc and STACK are R24's, which
the spec marks as derived; the memory clause is the model's own choice (log entry 8). -/
def Obligations.EveryTransactionKeepsTheInvariant : Prop :=
  (∀ (tr : Transaction) (s t : State) (r : Reply), s.Inv → transact tr (some s) = .next (t, r) → t.Inv) ∧
  ∀ font : Font, ∃ t, transact (.reset font) none = .next (t, .nothing) ∧ t.Inv

/-- Every state the host can reach, by any list of transactions whatever, has the invariant: the consequence, for runs,
of `EveryTransactionKeepsTheInvariant`. The bounds on pc and STACK are R24's, which the spec marks as derived; the
memory clause is the model's own choice (log entry 8). -/
def Obligations.EveryScheduleKeepsTheInvariant : Prop :=
  ∀ (ts : List Transaction) (s : State), afterAll ts none = some s → s.Inv

/-- With no program loaded, STEP k moves pc from 0x200 + 2(k-1) to 0x200 + 2k for k = 1 to 1792, and STEP 1793 faults
at pc = 0x1000: R174, which the spec marks as derived. -/
def Obligations.UnloadedMemorySlidesToAFault : Prop :=
  ∀ (font : Font) (draws : Nat),
    (∀ k ≤ 1792, Host.Core.run Sys2Proof.core k (State.resetWith font draws) =
      .next { State.resetWith font draws with pc := BitVec.ofNat 16 (0x200 + 2 * k) }) ∧
    Host.Core.run Sys2Proof.core 1793 (State.resetWith font draws) =
      .next { State.resetWith font draws with pc := 0x1000, fault := some .outOfBounds }

/-! ### Memory -/

/-- Two canonical memories that read the same at every address that exists are the same list. The canonical form is
the model's own (log entry 8). -/
def Obligations.CanonicalMemoryIsUnique : Prop :=
  ∀ (font : Font) (m₁ m₂ : Memory), Memory.wf font m₁ = true → Memory.wf font m₂ = true →
    (∀ a ≤ 0xFFF, Memory.read font m₁ a = Memory.read font m₂ a) → m₁ = m₂

/-- Fetch is coherent with stores: each byte that LD [I], Vx and LD B, Vx store is the byte fetched by any later STEP
whose pc covers it, as the first byte of a word or as the second, whether or not the word's other byte was stored with
it. R41, which the spec marks as derived. -/
def Obligations.StoredBytesAreFetched : Prop :=
  (∀ (s t : State) (x r : Nibble), s.i.toNat + x.toNat ≤ 0xFFF → exec (.ldMemVx x) s = .next t →
    r.toNat ≤ x.toNat → FetchedAfter t (s.i.toNat + r.toNat) (s.reg r)) ∧
  ∀ (s t : State) (x : Nibble), s.i.toNat + 2 ≤ 0xFFF → exec (.ldB x) s = .next t →
    FetchedAfter t s.i.toNat (BitVec.ofNat 8 ((s.reg x).toNat / 100)) ∧
    FetchedAfter t (s.i.toNat + 1) (BitVec.ofNat 8 ((s.reg x).toNat / 10 % 10)) ∧
    FetchedAfter t (s.i.toNat + 2) (BitVec.ofNat 8 ((s.reg x).toNat % 10))

/-! ### Control transfer -/

/-- R70. -/
def Obligations.RetPopsOrUnderflows : Prop :=
  ∀ s : State,
    (s.sp.val ≠ 0 → ∃ t, exec .ret s = .next t ∧ t.sp.val = s.sp.val - 1 ∧
      s.stack[s.sp.val - 1]? = some t.pc ∧ Frame [] [.stackPointer] s t) ∧
    (s.sp.val = 0 → exec .ret s = .next { s with fault := some .stackUnderflow })

/-- R72. -/
def Obligations.CallPushesOrOverflows : Prop :=
  ∀ (s : State) (nnn : Addr),
    (s.sp.val < 16 → ∃ t, exec (.call nnn) s = .next t ∧ t.sp.val = s.sp.val + 1 ∧ t.pc.toNat = nnn.toNat ∧
      (∀ j : Fin 16, t.stack[j] = if j.val = s.sp.val then s.pc + 2 else s.stack[j]) ∧
      Frame [] [.stackPointer, .stackSlots] s t) ∧
    (s.sp.val = 16 → exec (.call nnn) s = .next { s with fault := some .stackOverflow })

/-- R71, R73: the jumps' targets, unmasked and unchecked. -/
def Obligations.JumpsGoExactlyToTheirTargets : Prop :=
  ∀ (s : State) (nnn : Addr),
    (∃ t, exec (.jp nnn) s = .next t ∧ t.pc.toNat = nnn.toNat ∧ Frame [] [] s t) ∧
    ∃ t, exec (.jpV0 nnn) s = .next t ∧ t.pc.toNat = (nnn.toNat + (s.reg 0).toNat) % 65536 ∧ Frame [] [] s t

/-- R74, R75. -/
def Obligations.SkipsComparingAnImmediate : Prop :=
  ∀ (s : State) (x : Nibble) (kk : Byte),
    (∃ t, exec (.seImm x kk) s = .next t ∧ SkipsWhen (s.reg x = kk) s t) ∧
    ∃ t, exec (.sneImm x kk) s = .next t ∧ SkipsWhen (s.reg x ≠ kk) s t

/-- R76, R77. -/
def Obligations.SkipsComparingRegisters : Prop :=
  ∀ (s : State) (x y : Nibble),
    (∃ t, exec (.seReg x y) s = .next t ∧ SkipsWhen (s.reg x = s.reg y) s t) ∧
    ∃ t, exec (.sneReg x y) s = .next t ∧ SkipsWhen (s.reg x ≠ s.reg y) s t

/-- A CALL followed, after anything that leaves the call stack alone, by a RET goes on after the CALL with the stack
pointer as before. From R70 and R72 together. -/
def Obligations.RetReturnsAfterItsCall : Prop :=
  ∀ (s t t' : State) (nnn : Addr), s.sp.val < 16 → exec (.call nnn) s = .next t → t'.sp = t.sp → t'.stack = t.stack →
    ∃ u, exec .ret t' = .next u ∧ u.pc = s.pc + 2 ∧ u.sp = s.sp

/-- Every word of UNKNOWN is a no-op that passes the word. From R57; which words those are rests on patterns that are
general knowledge by the spec's own mark (log entry 1), and that UNKNOWN carries its word is the model's choice (log
entry 11). -/
def Obligations.UnknownWordsAreNoOps : Prop :=
  ∀ (s : State) (op : Word), isUnknownWord op = true →
    decode op = .unknown op ∧ exec (.unknown op) s = .next { s with pc := s.pc + 2 }

/-! ### Register arithmetic and logic -/

/-- R80, R82. -/
def Obligations.LoadsWriteOneRegister : Prop :=
  ∀ (s : State) (x y : Nibble) (kk : Byte),
    (∃ t, exec (.ldImm x kk) s = .next t ∧ WritesOnly x kk s t) ∧
    ∃ t, exec (.ldReg x y) s = .next t ∧ WritesOnly x (s.reg y) s t

/-- R81: modulo 256, and no flag. -/
def Obligations.AddImmediateWrapsWithoutFlag : Prop :=
  ∀ (s : State) (x : Nibble) (kk : Byte),
    ∃ t, exec (.addImm x kk) s = .next t ∧ (t.reg x).toNat = ((s.reg x).toNat + kk.toNat) % 256 ∧
      t.pc = s.pc + 2 ∧ Frame [x] [] s t

/-- R83, R84, R85: bit by bit, and VF is not reset. -/
def Obligations.LogicIsBitwiseWithoutFlag : Prop :=
  ∀ (s : State) (x y : Nibble),
    (∃ t, exec (.orReg x y) s = .next t ∧ t.pc = s.pc + 2 ∧ Frame [x] [] s t ∧
      ∀ k, (t.reg x).getLsbD k = ((s.reg x).getLsbD k || (s.reg y).getLsbD k)) ∧
    (∃ t, exec (.andReg x y) s = .next t ∧ t.pc = s.pc + 2 ∧ Frame [x] [] s t ∧
      ∀ k, (t.reg x).getLsbD k = ((s.reg x).getLsbD k && (s.reg y).getLsbD k)) ∧
    ∃ t, exec (.xorReg x y) s = .next t ∧ t.pc = s.pc + 2 ∧ Frame [x] [] s t ∧
      ∀ k, (t.reg x).getLsbD k = ((s.reg x).getLsbD k ^^ (s.reg y).getLsbD k)

/-- R86. -/
def Obligations.AddSetsCarry : Prop :=
  ∀ (s : State) (x y : Nibble), ∃ t, exec (.addReg x y) s = .next t ∧
    WritesFlagged x (((s.reg x).toNat + (s.reg y).toNat) % 256)
      (if (s.reg x).toNat + (s.reg y).toNat > 255 then 1 else 0) s t

/-- R87, R89: both subtractions, with the not-borrow convention. -/
def Obligations.SubtractionsSetNotBorrow : Prop :=
  ∀ (s : State) (x y : Nibble),
    (∃ t, exec (.sub x y) s = .next t ∧
      WritesFlagged x (((s.reg x).toNat + 256 - (s.reg y).toNat) % 256)
        (if (s.reg x).toNat ≥ (s.reg y).toNat then 1 else 0) s t) ∧
    ∃ t, exec (.subn x y) s = .next t ∧
      WritesFlagged x (((s.reg y).toNat + 256 - (s.reg x).toNat) % 256)
        (if (s.reg y).toNat ≥ (s.reg x).toNat then 1 else 0) s t

/-- R88, R90: Vx alone is shifted, whatever the y nibble. -/
def Obligations.ShiftsSetTheBitShiftedOut : Prop :=
  ∀ (s : State) (x y : Nibble),
    (∃ t, exec (.shr x y) s = .next t ∧ WritesFlagged x ((s.reg x).toNat / 2) ((s.reg x).toNat % 2) s t) ∧
    ∃ t, exec (.shl x y) s = .next t ∧
      WritesFlagged x ((s.reg x).toNat * 2 % 256) ((s.reg x).toNat / 128 % 2) s t

/-- R92: with x = 15, for each of the five flag producers, VF ends holding the flag and the result is lost; with
y = 15 the operand is the old VF. -/
def Obligations.FlagWinsOverResultInVF : Prop :=
  ∀ (s : State) (y : Nibble) (i : Instr) (flag : Nat),
    (i = .addReg 15 y ∧ flag = (if (s.reg 15).toNat + (s.reg y).toNat > 255 then 1 else 0)) ∨
    (i = .sub 15 y ∧ flag = (if (s.reg 15).toNat ≥ (s.reg y).toNat then 1 else 0)) ∨
    (i = .shr 15 y ∧ flag = (s.reg 15).toNat % 2) ∨
    (i = .subn 15 y ∧ flag = (if (s.reg y).toNat ≥ (s.reg 15).toNat then 1 else 0)) ∨
    (i = .shl 15 y ∧ flag = (s.reg 15).toNat / 128) →
    ∃ t, exec i s = .next t ∧ (t.reg 15).toNat = flag ∧ ∀ r, r ≠ 15 → t.reg r = s.reg r

/-! ### The address register and memory transfers -/

/-- R100, R101, R102. -/
def Obligations.IndexRegisterWrites : Prop :=
  ∀ (s : State) (x : Nibble) (nnn : Addr),
    (∃ t, exec (.ldI nnn) s = .next t ∧ t.i.toNat = nnn.toNat ∧ t.pc = s.pc + 2 ∧ Frame [] [.index] s t) ∧
    (∃ t, exec (.addI x) s = .next t ∧ t.i.toNat = (s.i.toNat + (s.reg x).toNat) % 65536 ∧ t.pc = s.pc + 2 ∧
      Frame [] [.index] s t) ∧
    ∃ t, exec (.ldF x) s = .next t ∧ t.i.toNat = (s.reg x).toNat * 5 ∧ t.pc = s.pc + 2 ∧ Frame [] [.index] s t

/-- R103. -/
def Obligations.BcdStoresThreeDigits : Prop :=
  ∀ (s : State) (x : Nibble),
    (s.i.toNat + 2 ≤ 0xFFF → ∃ t, exec (.ldB x) s = .next t ∧ t.pc = s.pc + 2 ∧
      (t.memRead s.i.toNat).toNat = (s.reg x).toNat / 100 ∧
      (t.memRead (s.i.toNat + 1)).toNat = (s.reg x).toNat / 10 % 10 ∧
      (t.memRead (s.i.toNat + 2)).toNat = (s.reg x).toNat % 10 ∧
      MemoryOutside s.i.toNat 3 s t ∧ Frame [] [.memory] s t) ∧
    (s.i.toNat + 2 > 0xFFF → exec (.ldB x) s = .next { s with fault := some .outOfBounds })

/-- R104. -/
def Obligations.BlockStoreWritesV0ToVx : Prop :=
  ∀ (s : State) (x : Nibble),
    (s.i.toNat + x.toNat ≤ 0xFFF → ∃ t, exec (.ldMemVx x) s = .next t ∧ t.pc = s.pc + 2 ∧
      (∀ r : Nibble, r.toNat ≤ x.toNat → t.memRead (s.i.toNat + r.toNat) = s.reg r) ∧
      MemoryOutside s.i.toNat (x.toNat + 1) s t ∧ Frame [] [.memory] s t) ∧
    (s.i.toNat + x.toNat > 0xFFF → exec (.ldMemVx x) s = .next { s with fault := some .outOfBounds })

/-- R105. -/
def Obligations.BlockLoadReadsV0ToVx : Prop :=
  ∀ (s : State) (x : Nibble),
    (s.i.toNat + x.toNat ≤ 0xFFF → ∃ t, exec (.ldVxMem x) s = .next t ∧ t.pc = s.pc + 2 ∧
      (∀ r : Nibble, t.reg r = if r.toNat ≤ x.toNat then s.memRead (s.i.toNat + r.toNat) else s.reg r) ∧
      ∀ p, samePart s t p) ∧
    (s.i.toNat + x.toNat > 0xFFF → exec (.ldVxMem x) s = .next { s with fault := some .outOfBounds })

/-! ### Display -/

/-- R110. -/
def Obligations.ClsClearsEveryPixel : Prop :=
  ∀ s : State, ∃ t, exec .cls s = .next t ∧ (∀ px py, pixelAt t.fb px py = false) ∧ t.pc = s.pc + 2 ∧
    Frame [] [.pixels] s t

/-- R111, R112: each pixel is toggled exactly if a 1 bit of the sprite lands on it, VF is 1 exactly if such a pixel
was 1, and a sprite that does not fit faults with no effect. -/
def Obligations.DrawXorsTheSprite : Prop :=
  ∀ (s : State) (x y n : Nibble),
    (n.toNat = 0 ∨ s.i.toNat + n.toNat - 1 ≤ 0xFFF → ∃ t, exec (.drw x y n) s = .next t ∧ t.pc = s.pc + 2 ∧
      (∀ px py, SpriteCovers s x y n px py → pixelAt t.fb px py = !pixelAt s.fb px py) ∧
      (∀ px py, ¬SpriteCovers s x y n px py → pixelAt t.fb px py = pixelAt s.fb px py) ∧
      ((∃ px py, SpriteCovers s x y n px py ∧ pixelAt s.fb px py = true) → t.reg 15 = 1) ∧
      ((¬∃ px py, SpriteCovers s x y n px py ∧ pixelAt s.fb px py = true) → t.reg 15 = 0) ∧
      Frame [15] [.pixels] s t) ∧
    (1 ≤ n.toNat → s.i.toNat + n.toNat - 1 > 0xFFF →
      exec (.drw x y n) s = .next { s with fault := some .outOfBounds })

/-- Drawing the same sprite twice at one place restores every pixel, and the second draw collides exactly if the
sprite covers a pixel that was 0. VF is no coordinate here, since the first draw writes it. From R111. -/
def Obligations.DrawingTwiceRestores : Prop :=
  ∀ (s t : State) (x y n : Nibble), x ≠ 15 → y ≠ 15 → s.i.toNat + n.toNat ≤ 0x1000 → exec (.drw x y n) s = .next t →
    ∃ u, exec (.drw x y n) t = .next u ∧ (∀ px py, pixelAt u.fb px py = pixelAt s.fb px py) ∧
      (u.reg 15 = 1 ↔ ∃ px py, SpriteCovers s x y n px py ∧ pixelAt s.fb px py = false)

/-! ### Keyboard -/

/-- R120, R121, R123: key V[x] alone is tested, and an index of 16 or more is never pressed. -/
def Obligations.KeySkipsTestKeyVx : Prop :=
  ∀ (s : State) (x : Nibble),
    (∃ t, exec (.skp x) s = .next t ∧
      SkipsWhen ((s.reg x).toNat ≤ 15 ∧ s.keys.getLsbD (s.reg x).toNat = true) s t) ∧
    ∃ t, exec (.sknp x) s = .next t ∧
      SkipsWhen (¬((s.reg x).toNat ≤ 15 ∧ s.keys.getLsbD (s.reg x).toNat = true)) s t

/-- R122: with no key pressed nothing changes at all, and the same instruction is next; else V[x] takes the least
pressed key. -/
def Obligations.WaitForKeyTakesTheLeastKey : Prop :=
  ∀ (s : State) (x : Nibble),
    (s.keys = 0 → exec (.ldVxK x) s = .next s) ∧
    (s.keys ≠ 0 → ∃ t k, exec (.ldVxK x) s = .next t ∧ k < 16 ∧ s.keys.getLsbD k = true ∧
      (∀ j < k, s.keys.getLsbD j = false) ∧ WritesOnly x (BitVec.ofNat 8 k) s t)

/-! ### Timers and random -/

/-- R130, R131, R132. -/
def Obligations.TimerTransfers : Prop :=
  ∀ (s : State) (x : Nibble),
    (∃ t, exec (.ldVxDt x) s = .next t ∧ WritesOnly x s.dt s t) ∧
    (∃ t, exec (.ldDtVx x) s = .next t ∧ t.dt = s.reg x ∧ t.pc = s.pc + 2 ∧ Frame [] [.delayTimer] s t) ∧
    ∃ t, exec (.ldStVx x) s = .next t ∧ t.st = s.reg x ∧ t.pc = s.pc + 2 ∧ Frame [] [.soundTimer] s t

/-- R133 for every byte `r` the source may supply: the register, pc, the one byte consumed, and all else unchanged; RND
is that meaning at the source's next byte. That the source is a counted list of free bytes is the model's choice (log
entry 3). -/
def Obligations.RandomByteIsMasked : Prop :=
  ∀ (s : State) (x : Nibble) (kk : Byte),
    (∃ t, exec (.rnd x kk) s = .next t ∧ t.reg x = Config.randByte s.draws &&& kk ∧ t.draws = s.draws + 1 ∧
      t.pc = s.pc + 2 ∧ Frame [x] [.randomPlace] s t) ∧
    ∀ r : Byte, ∃ t, rndWith r x kk s = .next t ∧ t.reg x = r &&& kk ∧ (kk = 0 → t.reg x = 0) ∧
      (kk = 0xFF → t.reg x = r) ∧ t.draws = s.draws + 1 ∧ t.pc = s.pc + 2 ∧ Frame [x] [.randomPlace] s t

/-! ### Whole-machine rules -/

/-- A register changes only by an instruction that R10 and R11 list for it. -/
def Obligations.RegistersHaveOnlyTheirWriters : Prop :=
  ∀ (i : Instr) (s t : State) (r : Nibble), exec i s = .next t → mayWriteReg i r = false → t.reg r = s.reg r

/-- Every other part of the state changes only by the instructions the state's rules list for it: I, the call stack,
the timers, the pixels, memory, FAULT and the random source; no instruction writes KEYS or the font parameter. -/
def Obligations.PartsHaveOnlyTheirWriters : Prop :=
  ∀ (i : Instr) (s t : State) (p : Part), exec i s = .next t → mayWritePart i p = false → samePart s t p

/-- R55's "A STEP never reads KEYS, DT or RAND except through the instruction it executes", and R15's "no instruction
reads ST": two states that differ only there go to states that differ at most there, for every instruction that does
not read it. Where the instruction is RND, both runs draw the same byte, since their `draws` are equal: that is the
model's choice (log entry 3), where the spec gives each STEP a free byte of its own. -/
def Obligations.InputsAreSeenOnlyByTheirReaders : Prop :=
  ∀ (i : Instr) (s t t' : State), exec i s = .next t →
    ((∀ x, i ≠ .skp x) → (∀ x, i ≠ .sknp x) → (∀ x, i ≠ .ldVxK x) →
      ∀ keys, exec i { s with keys := keys } = .next t' → { t' with keys := t.keys } = t) ∧
    ((∀ x, i ≠ .ldVxDt x) → ∀ dt, exec i { s with dt := dt } = .next t' → { t' with dt := t.dt } = t) ∧
    (∀ st, exec i { s with st := st } = .next t' → { t' with st := t.st } = t) ∧
    ((∀ x kk, i ≠ .rnd x kk) → ∀ draws, exec i { s with draws := draws } = .next t' → { t' with draws := t.draws } = t)

/-! ### Host transactions -/

/-- R150: each timer loses 1 unless it is 0, whatever FAULT holds, and nothing else changes. -/
def Obligations.TickCountsBothTimersDown : Prop :=
  ∀ s : State, ∃ t edge, transact .tick (some s) = .next (t, .tone edge) ∧ (edge = true ↔ s.st = 1) ∧
    t.dt.toNat = s.dt.toNat - 1 ∧ t.st.toNat = s.st.toNat - 1 ∧ t.pc = s.pc ∧
    Frame [] [.delayTimer, .soundTimer] s t

/-- R152: if nothing else writes ST, the tone edge is the output of exactly the TICK that takes ST from 1 to 0, the
n-th from ST = n, and no STEP outputs an edge. -/
def Obligations.ToneEdgeOnExactlyOneTick : Prop :=
  (∀ (s : State) (k : Nat), toneEdge (tick^[k] s) = true ↔ k + 1 = s.st.toNat) ∧
  (∀ s : State, ∃ t, transact .tick (some s) = .next (t, .tone (toneEdge s)) ∧
    (toneEdge s = true ↔ s.st.toNat = 1 ∧ t.st.toNat = 0)) ∧
  ∀ (s t : State) (r : Reply), transact .step (some s) = .next (t, r) → ∀ edge, r ≠ .tone edge

/-- R156. -/
def Obligations.KeySetsOneBitOrIsRefused : Prop :=
  ∀ (s : State) (index : Nat) (pressed : Bool),
    (index ≤ 15 → ∃ t, transact (.key index pressed) (some s) = .next (t, .nothing) ∧
      (∀ k, k < 16 → t.keys.getLsbD k = if k = index then pressed else s.keys.getLsbD k) ∧ t.pc = s.pc ∧
      Frame [] [.keyboard] s t) ∧
    (16 ≤ index → transact (.key index pressed) (some s) = .refused .keyIndexNotAdmitted ∧
      afterAll [.key index pressed] (some s) = some s)

/-- R172. -/
def Obligations.LoadCopiesTheImage : Prop :=
  ∀ (s : State) (bytes : List Byte),
    (bytes.length ≤ 3584 → ∃ t, transact (.load bytes) (some s) = .next (t, .loadOk) ∧
      (∀ k (h : k < bytes.length), t.memRead (0x200 + k) = bytes[k]) ∧ MemoryOutside 0x200 bytes.length s t ∧
      t.pc = s.pc ∧ Frame [] [.memory] s t) ∧
    (3584 < bytes.length → transact (.load bytes) (some s) = .next (s, .loadError))

/-- R157. -/
def Obligations.SnapshotIsRowMajor : Prop :=
  ∀ s : State, ∃ bits : Vector Bool 2048, transact .fbRead (some s) = .next (s, .snapshot bits) ∧
    ∀ (x : Fin 64) (y : Fin 32), bits[y.val * 64 + x.val]? = some (pixelAt s.fb x y)

/-- A transaction is refused only before the first RESET, or as a KEY whose index is 16 or more: R171, R156. -/
def Obligations.OnlyTheNamedTransactionsAreRefused : Prop :=
  (∀ tr : Transaction, tr.isReset = false → transact tr none = .refused .notYetReset) ∧
  ∀ (tr : Transaction) (s : State),
    (∃ t r, transact tr (some s) = .next (t, r)) ∨
    ∃ index pressed, tr = .key index pressed ∧ 16 ≤ index ∧ transact tr (some s) = .refused .keyIndexNotAdmitted
end

