-- ==== Sys2Proof/Laws/Decode.lean ====
section
/-! SUPPORT. The word of two bytes as a number (R32), the bytes of a word, and the fields of a packed word (R51). -/

namespace Sys2Proof

/-- R32: `opcode = MEM[pc] * 256 + MEM[pc + 1]`. -/
theorem bigEndian_eq (a b : Byte) : bigEndian a b = BitVec.ofNat 16 (a.toNat * 256 + b.toNat) := by
  have h : (bigEndian a b).toNat = a.toNat <<< 8 ||| b.toNat := BitVec.toNat_append a b
  have h' : a.toNat <<< 8 ||| b.toNat = a.toNat <<< 8 + b.toNat := (Nat.shiftLeft_add_eq_or_of_lt b.isLt _).symm
  apply BitVec.eq_of_toNat_eq
  rw [h, h', BitVec.toNat_ofNat, Nat.shiftLeft_eq]
  have := a.isLt; have := b.isLt
  omega

/-- A word is its two bytes. -/
theorem bigEndian_bytes (op : Word) : bigEndian (highByte op) (lowByte op) = op := by
  apply BitVec.eq_of_toNat_eq
  rw [bigEndian_eq, highByte, lowByte, BitVec.toNat_ofNat, BitVec.extractLsb'_toNat, BitVec.extractLsb'_toNat,
    Nat.shiftRight_eq_div_pow, Nat.shiftRight_zero]
  have := op.isLt
  omega

@[simp] theorem fieldC_toNat (op : Word) : (fieldC op).toNat = op.toNat / 4096 := by
  have := op.isLt
  rw [fieldC, BitVec.extractLsb'_toNat, Nat.shiftRight_eq_div_pow]; omega
@[simp] theorem fieldX_toNat (op : Word) : (fieldX op).toNat = op.toNat / 256 % 16 := by
  rw [fieldX, BitVec.extractLsb'_toNat, Nat.shiftRight_eq_div_pow]
@[simp] theorem fieldY_toNat (op : Word) : (fieldY op).toNat = op.toNat / 16 % 16 := by
  rw [fieldY, BitVec.extractLsb'_toNat, Nat.shiftRight_eq_div_pow]
@[simp] theorem fieldN_toNat (op : Word) : (fieldN op).toNat = op.toNat % 16 := by
  rw [fieldN, BitVec.extractLsb'_toNat, Nat.shiftRight_zero]
@[simp] theorem fieldKK_toNat (op : Word) : (fieldKK op).toNat = op.toNat % 256 := by
  rw [fieldKK, BitVec.extractLsb'_toNat, Nat.shiftRight_zero]
@[simp] theorem fieldNNN_toNat (op : Word) : (fieldNNN op).toNat = op.toNat % 4096 := by
  rw [fieldNNN, BitVec.extractLsb'_toNat, Nat.shiftRight_zero]

@[simp] theorem packNNN_toNat (c : Nibble) (nnn : Addr) : (packNNN c nnn).toNat = c.toNat * 4096 + nnn.toNat := by
  have h : (packNNN c nnn).toNat = c.toNat <<< 12 ||| nnn.toNat := BitVec.toNat_append c nnn
  have h' : c.toNat <<< 12 ||| nnn.toNat = c.toNat <<< 12 + nnn.toNat := (Nat.shiftLeft_add_eq_or_of_lt nnn.isLt _).symm
  rw [h, h', Nat.shiftLeft_eq]

@[simp] theorem packXKK_toNat (c x : Nibble) (kk : Byte) :
    (packXKK c x kk).toNat = c.toNat * 4096 + (x.toNat * 256 + kk.toNat) := by
  have hk := kk.isLt
  have h : (packXKK c x kk).toNat = c.toNat <<< 12 ||| (x ++ kk).toNat := BitVec.toNat_append c (x ++ kk)
  have h1 : (x ++ kk).toNat = x.toNat <<< 8 ||| kk.toNat := BitVec.toNat_append x kk
  have h2 : x.toNat <<< 8 ||| kk.toNat = x.toNat <<< 8 + kk.toNat := (Nat.shiftLeft_add_eq_or_of_lt kk.isLt _).symm
  have h3 : c.toNat <<< 12 ||| (x ++ kk).toNat = c.toNat <<< 12 + (x ++ kk).toNat :=
    (Nat.shiftLeft_add_eq_or_of_lt (x ++ kk).isLt _).symm
  rw [h, h3, h1, h2, Nat.shiftLeft_eq, Nat.shiftLeft_eq]

@[simp] theorem packXYN_toNat (c x y n : Nibble) :
    (packXYN c x y n).toNat = c.toNat * 4096 + (x.toNat * 256 + (y.toNat * 16 + n.toNat)) := by
  have h0 : packXYN c x y n = packXKK c x (y ++ n) := rfl
  have h1 : (y ++ n).toNat = y.toNat <<< 4 ||| n.toNat := BitVec.toNat_append y n
  have h2 : y.toNat <<< 4 ||| n.toNat = y.toNat <<< 4 + n.toNat := (Nat.shiftLeft_add_eq_or_of_lt n.isLt _).symm
  rw [h0, packXKK_toNat, h1, h2, Nat.shiftLeft_eq]

end Sys2Proof
end

