-- ==== Sys2Proof/Laws/Memory.lean ====
section
/-! SUPPORT. What one byte reads after a store, and that every memory operation keeps the canonical form. -/

namespace Sys2Proof.Machine

theorem Memory.lookup_insert (m : Memory) (a b : Nat) (v : Byte) :
    Memory.lookup (Memory.insert a v m) b = if b = a then some v else Memory.lookup m b := by
  induction m with
  | nil => simp [Memory.insert, Memory.lookup]
  | cons c m ih =>
    obtain ⟨k, w⟩ := c
    simp only [Memory.insert]
    split
    · simp [Memory.lookup]
    · split
      · subst k; by_cases h : b = a <;> simp [Memory.lookup, h]
      · simp only [Memory.lookup, ih]; grind

theorem Memory.lookup_erase (m : Memory) (a b : Nat) :
    Memory.lookup (Memory.erase a m) b = if b = a then none else Memory.lookup m b := by
  induction m with
  | nil => simp [Memory.erase, Memory.lookup]
  | cons c m ih =>
    obtain ⟨k, w⟩ := c
    simp only [Memory.erase, List.filter_cons] at ih ⊢
    by_cases hk : k = a
    · simp only [hk, bne_self_eq_false, Bool.false_eq_true, if_false, ih, Memory.lookup]; grind
    · simp only [bne_iff_ne, ne_eq, hk, not_false_iff, if_true, Memory.lookup, ih]; grind

/-- A byte after a store to an address that exists: the stored byte there, and everywhere else what was there. -/
theorem Memory.read_write (font : Font) (m : Memory) {a : Nat} (ha : a ≤ 0xFFF) (v : Byte) (b : Nat) :
    Memory.read font (Memory.write font m a v) b = if b = a then v else Memory.read font m b := by
  unfold Memory.read Memory.write
  rw [if_pos ha]
  split
  · rw [Memory.lookup_erase]; grind
  · rw [Memory.lookup_insert]; grind

/-- A byte other than the stored one, wherever the store goes. -/
theorem Memory.read_write_ne (font : Font) (m : Memory) (a : Nat) (v : Byte) {b : Nat} (h : b ≠ a) :
    Memory.read font (Memory.write font m a v) b = Memory.read font m b := by
  by_cases ha : a ≤ 0xFFF
  · rw [Memory.read_write font m ha, if_neg h]
  · rw [Memory.write, if_neg ha]

/-- A byte outside the stored span. -/
theorem Memory.read_writeList_outside (font : Font) (vs : List Byte) (m : Memory) (a b : Nat)
    (h : b < a ∨ a + vs.length ≤ b) :
    Memory.read font (Memory.writeList font m a vs) b = Memory.read font m b := by
  induction vs generalizing m a with
  | nil => rfl
  | cons v vs ih =>
    simp only [List.length_cons] at h
    rw [Memory.writeList, ih _ _ (by omega), Memory.read_write_ne _ _ _ _ (by omega)]

/-- A byte inside the stored span, all of which exists. -/
theorem Memory.read_writeList_inside (font : Font) (vs : List Byte) (m : Memory) (a k : Nat) (hk : k < vs.length)
    (hb : a + vs.length ≤ 0x1000) :
    Memory.read font (Memory.writeList font m a vs) (a + k) = vs[k] := by
  induction vs generalizing m a k with
  | nil => simp at hk
  | cons v vs ih =>
    simp only [List.length_cons] at hk hb
    rw [Memory.writeList]
    cases k with
    | zero =>
      rw [Memory.read_writeList_outside _ _ _ _ _ (by omega), Memory.read_write _ _ (by omega)]; simp
    | succ k =>
      have := ih (Memory.write font m a v) (a + 1) k (by omega) (by omega)
      rw [show a + (k + 1) = a + 1 + k by omega, this]; rfl

theorem Memory.rising_mono {m : Memory} {lo lo' : Nat} (h : Memory.rising lo m = true) (hl : lo' ≤ lo) :
    Memory.rising lo' m = true := by
  cases m with
  | nil => rfl
  | cons c m =>
    obtain ⟨k, w⟩ := c
    simp only [Memory.rising, Bool.and_eq_true, decide_eq_true_eq] at h ⊢
    exact ⟨by omega, h.2⟩

theorem Memory.rising_insert (m : Memory) (lo a : Nat) (v : Byte) (h : Memory.rising lo m = true) (ha : lo ≤ a) :
    Memory.rising lo (Memory.insert a v m) = true := by
  induction m generalizing lo with
  | nil => simp [Memory.insert, Memory.rising, ha]
  | cons c m ih =>
    obtain ⟨k, w⟩ := c
    simp only [Memory.rising, Bool.and_eq_true, decide_eq_true_eq] at h
    simp only [Memory.insert]
    split
    · simp only [Memory.rising, Bool.and_eq_true, decide_eq_true_eq]
      exact ⟨ha, by omega, h.2⟩
    · split
      · subst k; simp only [Memory.rising, Bool.and_eq_true, decide_eq_true_eq]; exact ⟨ha, h.2⟩
      · simp only [Memory.rising, Bool.and_eq_true, decide_eq_true_eq]
        exact ⟨h.1, ih _ h.2 (by omega)⟩

theorem Memory.rising_erase (m : Memory) (lo a : Nat) (h : Memory.rising lo m = true) :
    Memory.rising lo (Memory.erase a m) = true := by
  induction m generalizing lo with
  | nil => rfl
  | cons c m ih =>
    obtain ⟨k, w⟩ := c
    simp only [Memory.rising, Bool.and_eq_true, decide_eq_true_eq] at h
    simp only [Memory.erase, List.filter_cons]
    split
    · simp only [Memory.rising, Bool.and_eq_true, decide_eq_true_eq]
      exact ⟨h.1, ih _ h.2⟩
    · exact ih _ (Memory.rising_mono h.2 (by omega))

theorem Memory.all_insert (p : Host.Cell → Bool) (m : Memory) (a : Nat) (v : Byte) (h : m.all p = true)
    (hv : p (a, v) = true) : (Memory.insert a v m).all p = true := by
  induction m with
  | nil => simp [Memory.insert, hv]
  | cons c m ih =>
    obtain ⟨k, w⟩ := c
    simp only [List.all_cons, Bool.and_eq_true] at h
    simp only [Memory.insert]
    split
    · simp only [List.all_cons, Bool.and_eq_true]; exact ⟨hv, h.1, h.2⟩
    · split
      · simp only [List.all_cons, Bool.and_eq_true]; exact ⟨hv, h.2⟩
      · simp only [List.all_cons, Bool.and_eq_true]; exact ⟨h.1, ih h.2⟩

/-- A store keeps the canonical form. -/
theorem Memory.wf_write (font : Font) (m : Memory) (a : Nat) (v : Byte) (h : Memory.wf font m = true) :
    Memory.wf font (Memory.write font m a v) = true := by
  simp only [Memory.wf, Bool.and_eq_true] at h ⊢
  unfold Memory.write
  split
  · split
    · refine ⟨Memory.rising_erase _ _ _ h.1, ?_⟩
      simp only [Memory.erase, List.all_eq_true, List.mem_filter] at h ⊢
      exact fun c hc => h.2 c hc.1
    · exact ⟨Memory.rising_insert _ _ _ _ h.1 (Nat.zero_le _),
        Memory.all_insert _ _ _ _ h.2 (by simp [Memory.cellOk, *])⟩
  · exact h

/-- Stores of any number of bytes keep the canonical form. -/
theorem Memory.wf_writeList (font : Font) (vs : List Byte) (m : Memory) (a : Nat) (h : Memory.wf font m = true) :
    Memory.wf font (Memory.writeList font m a vs) = true := by
  induction vs generalizing m a with
  | nil => exact h
  | cons v vs ih => exact ih _ _ (Memory.wf_write font m a v h)

/-- Memory as RESET leaves it is canonical. -/
theorem Memory.wf_nil (font : Font) : Memory.wf font [] = true := rfl

/-- The bounds check in one inequality: with a non-empty span, its end is at most 0x1000 (R35). -/
theorem inBounds_iff (a len : Nat) : inBounds a len = true ↔ len = 0 ∨ a + len ≤ 0x1000 := by
  simp only [inBounds, Bool.or_eq_true, decide_eq_true_eq]; omega

/-- R35: a check that passes guarantees every address of the span. -/
theorem inBounds_addr {a len k : Nat} (h : inBounds a len = true) (hk : k < len) : a + k ≤ 0xFFF := by
  rw [inBounds_iff] at h; omega

end Sys2Proof.Machine
end

