-- ==== Sys2Proof/Laws/State.lean ====
section
/-! SUPPORT. Each field after each named update, so that no proof unfolds a record update. -/

namespace Sys2Proof.Machine

/-! ### `setReg` -/

@[simp] theorem State.setReg_v (s : State) (r : Nibble) (b : Byte) : (s.setReg r b).v = s.v.set r.toNat b r.isLt := rfl
@[simp] theorem State.setReg_i (s : State) (r : Nibble) (b : Byte) : (s.setReg r b).i = s.i := rfl
@[simp] theorem State.setReg_pc (s : State) (r : Nibble) (b : Byte) : (s.setReg r b).pc = s.pc := rfl
@[simp] theorem State.setReg_sp (s : State) (r : Nibble) (b : Byte) : (s.setReg r b).sp = s.sp := rfl
@[simp] theorem State.setReg_stack (s : State) (r : Nibble) (b : Byte) : (s.setReg r b).stack = s.stack := rfl
@[simp] theorem State.setReg_dt (s : State) (r : Nibble) (b : Byte) : (s.setReg r b).dt = s.dt := rfl
@[simp] theorem State.setReg_st (s : State) (r : Nibble) (b : Byte) : (s.setReg r b).st = s.st := rfl
@[simp] theorem State.setReg_keys (s : State) (r : Nibble) (b : Byte) : (s.setReg r b).keys = s.keys := rfl
@[simp] theorem State.setReg_fb (s : State) (r : Nibble) (b : Byte) : (s.setReg r b).fb = s.fb := rfl
@[simp] theorem State.setReg_mem (s : State) (r : Nibble) (b : Byte) : (s.setReg r b).mem = s.mem := rfl
@[simp] theorem State.setReg_fault (s : State) (r : Nibble) (b : Byte) : (s.setReg r b).fault = s.fault := rfl
@[simp] theorem State.setReg_font (s : State) (r : Nibble) (b : Byte) : (s.setReg r b).font = s.font := rfl
@[simp] theorem State.setReg_draws (s : State) (r : Nibble) (b : Byte) : (s.setReg r b).draws = s.draws := rfl

/-! ### `setI` -/

@[simp] theorem State.setI_v (s : State) (w : Word) : (s.setI w).v = s.v := rfl
@[simp] theorem State.setI_i (s : State) (w : Word) : (s.setI w).i = w := rfl
@[simp] theorem State.setI_pc (s : State) (w : Word) : (s.setI w).pc = s.pc := rfl
@[simp] theorem State.setI_sp (s : State) (w : Word) : (s.setI w).sp = s.sp := rfl
@[simp] theorem State.setI_stack (s : State) (w : Word) : (s.setI w).stack = s.stack := rfl
@[simp] theorem State.setI_dt (s : State) (w : Word) : (s.setI w).dt = s.dt := rfl
@[simp] theorem State.setI_st (s : State) (w : Word) : (s.setI w).st = s.st := rfl
@[simp] theorem State.setI_keys (s : State) (w : Word) : (s.setI w).keys = s.keys := rfl
@[simp] theorem State.setI_fb (s : State) (w : Word) : (s.setI w).fb = s.fb := rfl
@[simp] theorem State.setI_mem (s : State) (w : Word) : (s.setI w).mem = s.mem := rfl
@[simp] theorem State.setI_fault (s : State) (w : Word) : (s.setI w).fault = s.fault := rfl
@[simp] theorem State.setI_font (s : State) (w : Word) : (s.setI w).font = s.font := rfl
@[simp] theorem State.setI_draws (s : State) (w : Word) : (s.setI w).draws = s.draws := rfl

/-! ### `setPc` -/

@[simp] theorem State.setPc_v (s : State) (w : Word) : (s.setPc w).v = s.v := rfl
@[simp] theorem State.setPc_i (s : State) (w : Word) : (s.setPc w).i = s.i := rfl
@[simp] theorem State.setPc_pc (s : State) (w : Word) : (s.setPc w).pc = w := rfl
@[simp] theorem State.setPc_sp (s : State) (w : Word) : (s.setPc w).sp = s.sp := rfl
@[simp] theorem State.setPc_stack (s : State) (w : Word) : (s.setPc w).stack = s.stack := rfl
@[simp] theorem State.setPc_dt (s : State) (w : Word) : (s.setPc w).dt = s.dt := rfl
@[simp] theorem State.setPc_st (s : State) (w : Word) : (s.setPc w).st = s.st := rfl
@[simp] theorem State.setPc_keys (s : State) (w : Word) : (s.setPc w).keys = s.keys := rfl
@[simp] theorem State.setPc_fb (s : State) (w : Word) : (s.setPc w).fb = s.fb := rfl
@[simp] theorem State.setPc_mem (s : State) (w : Word) : (s.setPc w).mem = s.mem := rfl
@[simp] theorem State.setPc_fault (s : State) (w : Word) : (s.setPc w).fault = s.fault := rfl
@[simp] theorem State.setPc_font (s : State) (w : Word) : (s.setPc w).font = s.font := rfl
@[simp] theorem State.setPc_draws (s : State) (w : Word) : (s.setPc w).draws = s.draws := rfl

/-! ### `advance` -/

@[simp] theorem State.advance_v (s : State) : (s.advance).v = s.v := rfl
@[simp] theorem State.advance_i (s : State) : (s.advance).i = s.i := rfl
@[simp] theorem State.advance_pc (s : State) : (s.advance).pc = s.pc + 2 := rfl
@[simp] theorem State.advance_sp (s : State) : (s.advance).sp = s.sp := rfl
@[simp] theorem State.advance_stack (s : State) : (s.advance).stack = s.stack := rfl
@[simp] theorem State.advance_dt (s : State) : (s.advance).dt = s.dt := rfl
@[simp] theorem State.advance_st (s : State) : (s.advance).st = s.st := rfl
@[simp] theorem State.advance_keys (s : State) : (s.advance).keys = s.keys := rfl
@[simp] theorem State.advance_fb (s : State) : (s.advance).fb = s.fb := rfl
@[simp] theorem State.advance_mem (s : State) : (s.advance).mem = s.mem := rfl
@[simp] theorem State.advance_fault (s : State) : (s.advance).fault = s.fault := rfl
@[simp] theorem State.advance_font (s : State) : (s.advance).font = s.font := rfl
@[simp] theorem State.advance_draws (s : State) : (s.advance).draws = s.draws := rfl

/-! ### `rewind` -/

@[simp] theorem State.rewind_v (s : State) : (s.rewind).v = s.v := rfl
@[simp] theorem State.rewind_i (s : State) : (s.rewind).i = s.i := rfl
@[simp] theorem State.rewind_pc (s : State) : (s.rewind).pc = s.pc - 2 := rfl
@[simp] theorem State.rewind_sp (s : State) : (s.rewind).sp = s.sp := rfl
@[simp] theorem State.rewind_stack (s : State) : (s.rewind).stack = s.stack := rfl
@[simp] theorem State.rewind_dt (s : State) : (s.rewind).dt = s.dt := rfl
@[simp] theorem State.rewind_st (s : State) : (s.rewind).st = s.st := rfl
@[simp] theorem State.rewind_keys (s : State) : (s.rewind).keys = s.keys := rfl
@[simp] theorem State.rewind_fb (s : State) : (s.rewind).fb = s.fb := rfl
@[simp] theorem State.rewind_mem (s : State) : (s.rewind).mem = s.mem := rfl
@[simp] theorem State.rewind_fault (s : State) : (s.rewind).fault = s.fault := rfl
@[simp] theorem State.rewind_font (s : State) : (s.rewind).font = s.font := rfl
@[simp] theorem State.rewind_draws (s : State) : (s.rewind).draws = s.draws := rfl

/-! ### `storeBytes` -/

@[simp] theorem State.storeBytes_v (s : State) (a : Nat) (bs : List Byte) : (s.storeBytes a bs).v = s.v := rfl
@[simp] theorem State.storeBytes_i (s : State) (a : Nat) (bs : List Byte) : (s.storeBytes a bs).i = s.i := rfl
@[simp] theorem State.storeBytes_pc (s : State) (a : Nat) (bs : List Byte) : (s.storeBytes a bs).pc = s.pc := rfl
@[simp] theorem State.storeBytes_sp (s : State) (a : Nat) (bs : List Byte) : (s.storeBytes a bs).sp = s.sp := rfl
@[simp] theorem State.storeBytes_stack (s : State) (a : Nat) (bs : List Byte) : (s.storeBytes a bs).stack = s.stack := rfl
@[simp] theorem State.storeBytes_dt (s : State) (a : Nat) (bs : List Byte) : (s.storeBytes a bs).dt = s.dt := rfl
@[simp] theorem State.storeBytes_st (s : State) (a : Nat) (bs : List Byte) : (s.storeBytes a bs).st = s.st := rfl
@[simp] theorem State.storeBytes_keys (s : State) (a : Nat) (bs : List Byte) : (s.storeBytes a bs).keys = s.keys := rfl
@[simp] theorem State.storeBytes_fb (s : State) (a : Nat) (bs : List Byte) : (s.storeBytes a bs).fb = s.fb := rfl
@[simp] theorem State.storeBytes_mem (s : State) (a : Nat) (bs : List Byte) : (s.storeBytes a bs).mem = Memory.writeList s.font s.mem a bs := rfl
@[simp] theorem State.storeBytes_fault (s : State) (a : Nat) (bs : List Byte) : (s.storeBytes a bs).fault = s.fault := rfl
@[simp] theorem State.storeBytes_font (s : State) (a : Nat) (bs : List Byte) : (s.storeBytes a bs).font = s.font := rfl
@[simp] theorem State.storeBytes_draws (s : State) (a : Nat) (bs : List Byte) : (s.storeBytes a bs).draws = s.draws := rfl

/-! ### `setResultFlag` -/

@[simp] theorem State.setResultFlag_v (s : State) (x : Nibble) (r : Byte) (c : Bool) : (s.setResultFlag x r c).v = (s.v.set x.toNat r x.isLt).set vf.toNat (flagByte c) vf.isLt := rfl
@[simp] theorem State.setResultFlag_i (s : State) (x : Nibble) (r : Byte) (c : Bool) : (s.setResultFlag x r c).i = s.i := rfl
@[simp] theorem State.setResultFlag_pc (s : State) (x : Nibble) (r : Byte) (c : Bool) : (s.setResultFlag x r c).pc = s.pc := rfl
@[simp] theorem State.setResultFlag_sp (s : State) (x : Nibble) (r : Byte) (c : Bool) : (s.setResultFlag x r c).sp = s.sp := rfl
@[simp] theorem State.setResultFlag_stack (s : State) (x : Nibble) (r : Byte) (c : Bool) : (s.setResultFlag x r c).stack = s.stack := rfl
@[simp] theorem State.setResultFlag_dt (s : State) (x : Nibble) (r : Byte) (c : Bool) : (s.setResultFlag x r c).dt = s.dt := rfl
@[simp] theorem State.setResultFlag_st (s : State) (x : Nibble) (r : Byte) (c : Bool) : (s.setResultFlag x r c).st = s.st := rfl
@[simp] theorem State.setResultFlag_keys (s : State) (x : Nibble) (r : Byte) (c : Bool) : (s.setResultFlag x r c).keys = s.keys := rfl
@[simp] theorem State.setResultFlag_fb (s : State) (x : Nibble) (r : Byte) (c : Bool) : (s.setResultFlag x r c).fb = s.fb := rfl
@[simp] theorem State.setResultFlag_mem (s : State) (x : Nibble) (r : Byte) (c : Bool) : (s.setResultFlag x r c).mem = s.mem := rfl
@[simp] theorem State.setResultFlag_fault (s : State) (x : Nibble) (r : Byte) (c : Bool) : (s.setResultFlag x r c).fault = s.fault := rfl
@[simp] theorem State.setResultFlag_font (s : State) (x : Nibble) (r : Byte) (c : Bool) : (s.setResultFlag x r c).font = s.font := rfl
@[simp] theorem State.setResultFlag_draws (s : State) (x : Nibble) (r : Byte) (c : Bool) : (s.setResultFlag x r c).draws = s.draws := rfl

/-! ### `setBlit` -/

@[simp] theorem State.setBlit_v (s : State) (w : Blit) : (s.setBlit w).v = s.v.set vf.toNat (flagByte w.collision) vf.isLt := rfl
@[simp] theorem State.setBlit_i (s : State) (w : Blit) : (s.setBlit w).i = s.i := rfl
@[simp] theorem State.setBlit_pc (s : State) (w : Blit) : (s.setBlit w).pc = s.pc := rfl
@[simp] theorem State.setBlit_sp (s : State) (w : Blit) : (s.setBlit w).sp = s.sp := rfl
@[simp] theorem State.setBlit_stack (s : State) (w : Blit) : (s.setBlit w).stack = s.stack := rfl
@[simp] theorem State.setBlit_dt (s : State) (w : Blit) : (s.setBlit w).dt = s.dt := rfl
@[simp] theorem State.setBlit_st (s : State) (w : Blit) : (s.setBlit w).st = s.st := rfl
@[simp] theorem State.setBlit_keys (s : State) (w : Blit) : (s.setBlit w).keys = s.keys := rfl
@[simp] theorem State.setBlit_fb (s : State) (w : Blit) : (s.setBlit w).fb = w.fb := rfl
@[simp] theorem State.setBlit_mem (s : State) (w : Blit) : (s.setBlit w).mem = s.mem := rfl
@[simp] theorem State.setBlit_fault (s : State) (w : Blit) : (s.setBlit w).fault = s.fault := rfl
@[simp] theorem State.setBlit_font (s : State) (w : Blit) : (s.setBlit w).font = s.font := rfl
@[simp] theorem State.setBlit_draws (s : State) (w : Blit) : (s.setBlit w).draws = s.draws := rfl

/-! ### `tick` and `setKey` -/

@[simp] theorem tick_v (s : State) : (tick s).v = s.v := rfl
@[simp] theorem tick_i (s : State) : (tick s).i = s.i := rfl
@[simp] theorem tick_pc (s : State) : (tick s).pc = s.pc := rfl
@[simp] theorem tick_sp (s : State) : (tick s).sp = s.sp := rfl
@[simp] theorem tick_stack (s : State) : (tick s).stack = s.stack := rfl
@[simp] theorem tick_dt (s : State) : (tick s).dt = countDown s.dt := rfl
@[simp] theorem tick_st (s : State) : (tick s).st = countDown s.st := rfl
@[simp] theorem tick_keys (s : State) : (tick s).keys = s.keys := rfl
@[simp] theorem tick_fb (s : State) : (tick s).fb = s.fb := rfl
@[simp] theorem tick_mem (s : State) : (tick s).mem = s.mem := rfl
@[simp] theorem tick_fault (s : State) : (tick s).fault = s.fault := rfl
@[simp] theorem tick_font (s : State) : (tick s).font = s.font := rfl
@[simp] theorem tick_draws (s : State) : (tick s).draws = s.draws := rfl
@[simp] theorem setKey_v (s : State) (k : Fin 16) (p : Bool) : (setKey s k p).v = s.v := rfl
@[simp] theorem setKey_i (s : State) (k : Fin 16) (p : Bool) : (setKey s k p).i = s.i := rfl
@[simp] theorem setKey_pc (s : State) (k : Fin 16) (p : Bool) : (setKey s k p).pc = s.pc := rfl
@[simp] theorem setKey_sp (s : State) (k : Fin 16) (p : Bool) : (setKey s k p).sp = s.sp := rfl
@[simp] theorem setKey_stack (s : State) (k : Fin 16) (p : Bool) : (setKey s k p).stack = s.stack := rfl
@[simp] theorem setKey_dt (s : State) (k : Fin 16) (p : Bool) : (setKey s k p).dt = s.dt := rfl
@[simp] theorem setKey_st (s : State) (k : Fin 16) (p : Bool) : (setKey s k p).st = s.st := rfl
@[simp] theorem setKey_keys (s : State) (k : Fin 16) (p : Bool) : (setKey s k p).keys = keysAfter s.keys k p := rfl
@[simp] theorem setKey_fb (s : State) (k : Fin 16) (p : Bool) : (setKey s k p).fb = s.fb := rfl
@[simp] theorem setKey_mem (s : State) (k : Fin 16) (p : Bool) : (setKey s k p).mem = s.mem := rfl
@[simp] theorem setKey_fault (s : State) (k : Fin 16) (p : Bool) : (setKey s k p).fault = s.fault := rfl
@[simp] theorem setKey_font (s : State) (k : Fin 16) (p : Bool) : (setKey s k p).font = s.font := rfl
@[simp] theorem setKey_draws (s : State) (k : Fin 16) (p : Bool) : (setKey s k p).draws = s.draws := rfl

/-! ### `skipIf`: only pc can change -/

@[simp] theorem State.skipIf_v (s : State) (c : Bool) : (s.skipIf c).v = s.v := by cases c <;> rfl
@[simp] theorem State.skipIf_i (s : State) (c : Bool) : (s.skipIf c).i = s.i := by cases c <;> rfl
@[simp] theorem State.skipIf_pc (s : State) (c : Bool) : (s.skipIf c).pc = if c then s.pc + 2 else s.pc := by cases c <;> rfl
@[simp] theorem State.skipIf_sp (s : State) (c : Bool) : (s.skipIf c).sp = s.sp := by cases c <;> rfl
@[simp] theorem State.skipIf_stack (s : State) (c : Bool) : (s.skipIf c).stack = s.stack := by cases c <;> rfl
@[simp] theorem State.skipIf_dt (s : State) (c : Bool) : (s.skipIf c).dt = s.dt := by cases c <;> rfl
@[simp] theorem State.skipIf_st (s : State) (c : Bool) : (s.skipIf c).st = s.st := by cases c <;> rfl
@[simp] theorem State.skipIf_keys (s : State) (c : Bool) : (s.skipIf c).keys = s.keys := by cases c <;> rfl
@[simp] theorem State.skipIf_fb (s : State) (c : Bool) : (s.skipIf c).fb = s.fb := by cases c <;> rfl
@[simp] theorem State.skipIf_mem (s : State) (c : Bool) : (s.skipIf c).mem = s.mem := by cases c <;> rfl
@[simp] theorem State.skipIf_fault (s : State) (c : Bool) : (s.skipIf c).fault = s.fault := by cases c <;> rfl
@[simp] theorem State.skipIf_font (s : State) (c : Bool) : (s.skipIf c).font = s.font := by cases c <;> rfl
@[simp] theorem State.skipIf_draws (s : State) (c : Bool) : (s.skipIf c).draws = s.draws := by cases c <;> rfl

/-! ### `loadRegs`: only registers can change -/

@[simp] theorem State.loadRegs_i (s : State) (r : Nat) (bs : List Byte) : (s.loadRegs r bs).i = s.i := by
  induction bs generalizing s r with
  | nil => rfl
  | cons b bs ih => exact (ih _ _).trans rfl
@[simp] theorem State.loadRegs_pc (s : State) (r : Nat) (bs : List Byte) : (s.loadRegs r bs).pc = s.pc := by
  induction bs generalizing s r with
  | nil => rfl
  | cons b bs ih => exact (ih _ _).trans rfl
@[simp] theorem State.loadRegs_sp (s : State) (r : Nat) (bs : List Byte) : (s.loadRegs r bs).sp = s.sp := by
  induction bs generalizing s r with
  | nil => rfl
  | cons b bs ih => exact (ih _ _).trans rfl
@[simp] theorem State.loadRegs_stack (s : State) (r : Nat) (bs : List Byte) : (s.loadRegs r bs).stack = s.stack := by
  induction bs generalizing s r with
  | nil => rfl
  | cons b bs ih => exact (ih _ _).trans rfl
@[simp] theorem State.loadRegs_dt (s : State) (r : Nat) (bs : List Byte) : (s.loadRegs r bs).dt = s.dt := by
  induction bs generalizing s r with
  | nil => rfl
  | cons b bs ih => exact (ih _ _).trans rfl
@[simp] theorem State.loadRegs_st (s : State) (r : Nat) (bs : List Byte) : (s.loadRegs r bs).st = s.st := by
  induction bs generalizing s r with
  | nil => rfl
  | cons b bs ih => exact (ih _ _).trans rfl
@[simp] theorem State.loadRegs_keys (s : State) (r : Nat) (bs : List Byte) : (s.loadRegs r bs).keys = s.keys := by
  induction bs generalizing s r with
  | nil => rfl
  | cons b bs ih => exact (ih _ _).trans rfl
@[simp] theorem State.loadRegs_fb (s : State) (r : Nat) (bs : List Byte) : (s.loadRegs r bs).fb = s.fb := by
  induction bs generalizing s r with
  | nil => rfl
  | cons b bs ih => exact (ih _ _).trans rfl
@[simp] theorem State.loadRegs_mem (s : State) (r : Nat) (bs : List Byte) : (s.loadRegs r bs).mem = s.mem := by
  induction bs generalizing s r with
  | nil => rfl
  | cons b bs ih => exact (ih _ _).trans rfl
@[simp] theorem State.loadRegs_fault (s : State) (r : Nat) (bs : List Byte) : (s.loadRegs r bs).fault = s.fault := by
  induction bs generalizing s r with
  | nil => rfl
  | cons b bs ih => exact (ih _ _).trans rfl
@[simp] theorem State.loadRegs_font (s : State) (r : Nat) (bs : List Byte) : (s.loadRegs r bs).font = s.font := by
  induction bs generalizing s r with
  | nil => rfl
  | cons b bs ih => exact (ih _ _).trans rfl
@[simp] theorem State.loadRegs_draws (s : State) (r : Nat) (bs : List Byte) : (s.loadRegs r bs).draws = s.draws := by
  induction bs generalizing s r with
  | nil => rfl
  | cons b bs ih => exact (ih _ _).trans rfl

/-! ### `resetWith` -/

@[simp] theorem State.resetWith_v (f : Font) (d : Nat) : (State.resetWith f d).v = Vector.replicate 16 0 := rfl
@[simp] theorem State.resetWith_i (f : Font) (d : Nat) : (State.resetWith f d).i = 0 := rfl
@[simp] theorem State.resetWith_pc (f : Font) (d : Nat) : (State.resetWith f d).pc = 0x200 := rfl
@[simp] theorem State.resetWith_sp (f : Font) (d : Nat) : (State.resetWith f d).sp = 0 := rfl
@[simp] theorem State.resetWith_stack (f : Font) (d : Nat) : (State.resetWith f d).stack = Vector.replicate 16 0 := rfl
@[simp] theorem State.resetWith_dt (f : Font) (d : Nat) : (State.resetWith f d).dt = 0 := rfl
@[simp] theorem State.resetWith_st (f : Font) (d : Nat) : (State.resetWith f d).st = 0 := rfl
@[simp] theorem State.resetWith_keys (f : Font) (d : Nat) : (State.resetWith f d).keys = 0 := rfl
@[simp] theorem State.resetWith_fb (f : Font) (d : Nat) : (State.resetWith f d).fb = blankFb := rfl
@[simp] theorem State.resetWith_mem (f : Font) (d : Nat) : (State.resetWith f d).mem = [] := rfl
@[simp] theorem State.resetWith_fault (f : Font) (d : Nat) : (State.resetWith f d).fault = none := rfl
@[simp] theorem State.resetWith_font (f : Font) (d : Nat) : (State.resetWith f d).font = f := rfl
@[simp] theorem State.resetWith_draws (f : Font) (d : Nat) : (State.resetWith f d).draws = d := rfl

end Sys2Proof.Machine
end

