-- ==== Sys2Proof/Laws/Registers.lean ====
section
/-! SUPPORT. What a register reads after each named update. -/

namespace Sys2Proof.Machine

@[simp] theorem State.reg_advance (s : State) (r : Nibble) : s.advance.reg r = s.reg r := rfl
@[simp] theorem State.reg_rewind (s : State) (r : Nibble) : s.rewind.reg r = s.reg r := rfl
@[simp] theorem State.reg_setI (s : State) (w : Word) (r : Nibble) : (s.setI w).reg r = s.reg r := rfl
@[simp] theorem State.reg_setPc (s : State) (w : Word) (r : Nibble) : (s.setPc w).reg r = s.reg r := rfl
@[simp] theorem State.reg_storeBytes (s : State) (a : Nat) (bs : List Byte) (r : Nibble) :
    (s.storeBytes a bs).reg r = s.reg r := rfl
@[simp] theorem State.reg_skipIf (s : State) (c : Bool) (r : Nibble) : (s.skipIf c).reg r = s.reg r := by
  cases c <;> rfl

/-- A register after a write: the written one holds the byte, every other what it held. -/
theorem State.reg_setReg (s : State) (r q : Nibble) (b : Byte) :
    (s.setReg r b).reg q = if q = r then b else s.reg q := by
  have : q = r ↔ r.toNat = q.toNat := by rw [BitVec.toNat_inj, eq_comm]
  simp only [State.reg, State.setReg, Vector.getElem_set, this]

@[simp] theorem State.reg_setReg_same (s : State) (r : Nibble) (b : Byte) : (s.setReg r b).reg r = b := by
  rw [State.reg_setReg, if_pos rfl]

theorem State.reg_setReg_ne (s : State) {r q : Nibble} (b : Byte) (h : q ≠ r) : (s.setReg r b).reg q = s.reg q := by
  rw [State.reg_setReg, if_neg h]

/-- R92: after result and flag, VF holds the flag, `V[x]` the result unless it is VF, and the others what they held. -/
theorem State.reg_setResultFlag (s : State) (x q : Nibble) (r : Byte) (c : Bool) :
    (s.setResultFlag x r c).reg q = if q = vf then flagByte c else if q = x then r else s.reg q := by
  rw [State.setResultFlag, State.reg_setReg, State.reg_setReg]

/-- R111: a blit writes VF and no other register. -/
theorem State.reg_setBlit (s : State) (w : Blit) (q : Nibble) :
    (s.setBlit w).reg q = if q = vf then flagByte w.collision else s.reg q := by
  rw [State.setBlit, State.reg_setReg]; rfl

/-- R105: loading bytes from `V[r]` on, within the 16 registers. -/
theorem State.reg_loadRegs (s : State) (bs : List Byte) (r : Nat) (hr : r + bs.length ≤ 16) (q : Nibble) :
    (s.loadRegs r bs).reg q = if h : r ≤ q.toNat ∧ q.toNat < r + bs.length then bs[q.toNat - r] else s.reg q := by
  induction bs generalizing s r with
  | nil => simp only [State.loadRegs, List.length_nil]; rw [dif_neg (by omega)]
  | cons b bs ih =>
    simp only [List.length_cons] at hr ⊢
    rw [State.loadRegs, ih _ _ (by omega), State.reg_setReg]
    have hq : q = BitVec.ofNat 4 r ↔ q.toNat = r := by
      rw [← BitVec.toNat_inj, BitVec.toNat_ofNat, Nat.mod_eq_of_lt (by omega)]
    by_cases h1 : q.toNat = r
    · rw [dif_neg (by omega), if_pos (hq.2 h1), dif_pos (by omega)]; simp [h1]
    · rw [if_neg (fun h => h1 (hq.1 h))]
      by_cases h2 : r + 1 ≤ q.toNat ∧ q.toNat < r + 1 + bs.length
      · rw [dif_pos h2, dif_pos (by omega)]
        simp only [show q.toNat - r = (q.toNat - (r + 1)) + 1 by omega, List.getElem_cons_succ]
      · rw [dif_neg h2, dif_neg (by omega)]

/-- R104: the byte stored for `V[k]`. -/
theorem State.firstRegs_length (s : State) (x : Nibble) : (s.firstRegs x).length = x.toNat + 1 := by
  have := x.isLt
  simp only [State.firstRegs, List.length_take, Vector.length_toList]; omega

theorem State.firstRegs_getElem (s : State) (x : Nibble) (k : Nat) (h : k < (s.firstRegs x).length) :
    (s.firstRegs x)[k] = s.reg (BitVec.ofNat 4 k) := by
  have hk : k < 16 := by rw [State.firstRegs_length] at h; have := x.isLt; omega
  simp only [State.firstRegs, List.getElem_take, Vector.getElem_toList, State.reg, BitVec.toNat_ofNat,
    Nat.mod_eq_of_lt (show k < 2 ^ 4 from hk)]

end Sys2Proof.Machine
end

