-- ==== Sys2Proof/Laws/Ops.lean ====
section
/-! SUPPORT. One lemma for each shared operation that says all it can do. -/

namespace Sys2Proof.Machine

@[simp] theorem State.memRead_advance (s : State) (a : Nat) : s.advance.memRead a = s.memRead a := rfl
@[simp] theorem State.memRead_rewind (s : State) (a : Nat) : s.rewind.memRead a = s.memRead a := rfl
@[simp] theorem State.memRead_setReg (s : State) (r : Nibble) (b : Byte) (a : Nat) :
    (s.setReg r b).memRead a = s.memRead a := rfl
@[simp] theorem State.memRead_setI (s : State) (w : Word) (a : Nat) : (s.setI w).memRead a = s.memRead a := rfl
@[simp] theorem State.memRead_setPc (s : State) (w : Word) (a : Nat) : (s.setPc w).memRead a = s.memRead a := rfl
@[simp] theorem State.memRead_setResultFlag (s : State) (x : Nibble) (r : Byte) (c : Bool) (a : Nat) :
    (s.setResultFlag x r c).memRead a = s.memRead a := rfl
@[simp] theorem State.memRead_setBlit (s : State) (w : Blit) (a : Nat) : (s.setBlit w).memRead a = s.memRead a := rfl
@[simp] theorem State.memRead_skipIf (s : State) (c : Bool) (a : Nat) : (s.skipIf c).memRead a = s.memRead a := by
  cases c <;> rfl
@[simp] theorem State.memRead_loadRegs (s : State) (r : Nat) (bs : List Byte) (a : Nat) :
    (s.loadRegs r bs).memRead a = s.memRead a := by simp [State.memRead]

/-- A byte outside the stored span reads as before. -/
theorem State.memRead_storeBytes_outside (s : State) (a : Nat) (bs : List Byte) (b : Nat)
    (h : b < a ∨ a + bs.length ≤ b) : (s.storeBytes a bs).memRead b = s.memRead b :=
  Memory.read_writeList_outside _ _ _ _ _ h

/-- A byte inside the stored span, all of which exists, is the stored one. -/
theorem State.memRead_storeBytes_inside (s : State) (a : Nat) (bs : List Byte) (k : Nat) (hk : k < bs.length)
    (hb : a + bs.length ≤ 0x1000) : (s.storeBytes a bs).memRead (a + k) = bs[k] :=
  Memory.read_writeList_inside _ _ _ _ _ hk hb

/-- R35, R142: a STEP that ends, ends in the state its execute phase reached or with FAULT set in the state it began
in; it always ends in a next state. -/
theorem conclude_cases (s : State) (r : Except Fault State) :
    (∃ t, r = .ok t ∧ conclude s r = .next t) ∨ (∃ k, r = .error k ∧ conclude s r = .next { s with fault := some k }) := by
  cases r with
  | ok t => exact .inl ⟨t, rfl, rfl⟩
  | error k => exact .inr ⟨k, rfl, rfl⟩

@[simp] theorem conclude_ok (s t : State) : conclude s (.ok t) = .next t := rfl
@[simp] theorem conclude_error (s : State) (k : Fault) : conclude s (.error k) = .next { s with fault := some k } := rfl
@[simp] theorem except_map_ok {α β : Type} (f : α → β) (a : α) :
    Except.map f (Except.ok a : Except Fault α) = .ok (f a) := rfl
@[simp] theorem except_map_error {α β : Type} (f : α → β) (k : Fault) :
    Except.map f (Except.error k : Except Fault α) = .error k := rfl

/-- The bytes a span reads when it fits (R35). -/
def State.spanBytes (s : State) (a len : Nat) : List Byte := (List.range len).map fun k => s.memRead (a + k)

@[simp] theorem State.spanBytes_length (s : State) (a len : Nat) : (s.spanBytes a len).length = len := by
  simp [State.spanBytes]

@[simp] theorem State.spanBytes_getElem (s : State) (a len k : Nat) (h : k < (s.spanBytes a len).length) :
    (s.spanBytes a len)[k] = s.memRead (a + k) := by
  simp [State.spanBytes]

/-- R35: a span that fits is read whole. -/
theorem State.readSpan_ok (s : State) {a len : Nat} (h : len = 0 ∨ a + len ≤ 0x1000) :
    s.readSpan a len = .ok (s.spanBytes a len) := by
  rw [State.readSpan, if_pos ((inBounds_iff a len).2 h)]; rfl

/-- R35: a span that does not fit is OUT_OF_BOUNDS. -/
theorem State.readSpan_error (s : State) {a len : Nat} (h : ¬(len = 0 ∨ a + len ≤ 0x1000)) :
    s.readSpan a len = .error .outOfBounds := by
  rw [State.readSpan, if_neg (fun hb => h ((inBounds_iff a len).1 hb))]

/-- R35: a span that fits is stored whole. -/
theorem State.writeSpan_ok (s : State) {a : Nat} {bs : List Byte} (h : bs.length = 0 ∨ a + bs.length ≤ 0x1000) :
    s.writeSpan a bs = .ok (s.storeBytes a bs) := by
  rw [State.writeSpan, if_pos ((inBounds_iff a bs.length).2 h)]

/-- R35: a span that does not fit is OUT_OF_BOUNDS. -/
theorem State.writeSpan_error (s : State) {a : Nat} {bs : List Byte} (h : ¬(bs.length = 0 ∨ a + bs.length ≤ 0x1000)) :
    s.writeSpan a bs = .error .outOfBounds := by
  rw [State.writeSpan, if_neg (fun hb => h ((inBounds_iff a bs.length).1 hb))]

/-- R33: a fetch that fits. -/
theorem State.fetch_ok (s : State) (h : s.pc.toNat ≤ 0xFFE) :
    s.fetch = .ok (bigEndian (s.memRead s.pc.toNat) (s.memRead (s.pc.toNat + 1))) := by
  rw [State.fetch, if_pos ((inBounds_iff _ _).2 (.inr (by omega)))]

/-- R33: a fetch that runs past 0xFFF. -/
theorem State.fetch_error (s : State) (h : 0xFFE < s.pc.toNat) : s.fetch = .error .outOfBounds := by
  rw [State.fetch, if_neg (fun hb => by rw [inBounds_iff] at hb; omega)]

/-- R72: a push onto a stack that is not full. -/
theorem State.push_ok (s : State) (w : Word) (h : s.sp.val < 16) :
    s.push w = .ok { s with stack := s.stack.set s.sp.val w h, sp := ⟨s.sp.val + 1, by omega⟩ } := dif_pos h

/-- R72: a push onto a full stack. -/
theorem State.push_error (s : State) (w : Word) (h : ¬s.sp.val < 16) : s.push w = .error .stackOverflow := dif_neg h

/-- R70: a pop from a stack that is not empty. -/
theorem State.pop_ok (s : State) (h : s.sp.val ≠ 0) :
    s.pop = .ok (s.stack[s.sp.val - 1]'(by have := s.sp.isLt; omega),
      { s with sp := ⟨s.sp.val - 1, by have := s.sp.isLt; omega⟩ }) := dif_neg h

/-- R70: a pop from an empty stack. -/
theorem State.pop_error (s : State) (h : s.sp.val = 0) : s.pop = .error .stackUnderflow := dif_pos h

/-- R122: no least key exactly when no key is pressed. -/
theorem State.leastKey_none (s : State) : s.leastKey = none ↔ s.keys = 0 := by
  simp only [State.leastKey, List.find?_eq_none, List.mem_range]
  constructor
  · intro h
    apply BitVec.eq_of_getLsbD_eq
    intro k hk
    simpa using h k hk
  · intro h k _; simp [h]

/-- R122: the least key is pressed, and no lower one is. -/
theorem State.leastKey_some (s : State) {k : Nat} (h : s.leastKey = some k) :
    k < 16 ∧ s.keys.getLsbD k = true ∧ ∀ j < k, s.keys.getLsbD j = false := by
  rw [State.leastKey, List.find?_range_eq_some] at h
  obtain ⟨hp, hk, hl⟩ := h
  exact ⟨List.mem_range.1 hk, hp, fun j hj => by simpa using hl j hj⟩

/-- R123: the key test as one bit of KEYS. -/
theorem State.pressed_eq (s : State) (k : Byte) : s.pressed k = s.keys.getLsbD k.toNat := by
  unfold State.pressed
  by_cases h : k.toNat ≤ 15
  · simp [h]
  · rw [BitVec.getLsbD_of_ge _ _ (by omega)]; simp

end Sys2Proof.Machine
end

