-- ==== Sys2Proof/Laws/Frame.lean ====
section
/-! SUPPORT. The frame of each named update, and how frames are widened. -/

namespace Sys2Proof.Machine

theorem samePart_refl (s : State) (p : Part) : samePart s s p := by cases p <;> simp [samePart]

/-- A frame holds for any larger set of exceptions. -/
theorem Frame.mono {rs rs' : List Nibble} {ps ps' : List Part} {s t : State} (h : Frame rs ps s t) (hr : rs ⊆ rs')
    (hp : ps ⊆ ps') : Frame rs' ps' s t :=
  ⟨fun r hn => h.1 r fun hm => hn (hr hm), fun p hn => h.2 p fun hm => hn (hp hm)⟩

theorem frame_advance (s : State) : Frame [] [] s s.advance :=
  ⟨fun _ _ => rfl, fun p _ => by cases p <;> simp [samePart]⟩

theorem frame_setPc (s : State) (w : Word) : Frame [] [] s (s.advance.setPc w) :=
  ⟨fun _ _ => rfl, fun p _ => by cases p <;> simp [samePart]⟩

theorem frame_skipIf (s : State) (c : Bool) : Frame [] [] s (s.advance.skipIf c) :=
  ⟨fun r _ => by simp, fun p _ => by cases p <;> simp [samePart]⟩

theorem frame_setReg (s : State) (x : Nibble) (b : Byte) : Frame [x] [] s (s.advance.setReg x b) :=
  ⟨fun r h => by simp only [List.mem_singleton] at h; rw [State.reg_setReg_ne _ _ h]; rfl,
   fun p _ => by cases p <;> simp [samePart]⟩

theorem frame_setI (s : State) (w : Word) : Frame [] [.index] s (s.advance.setI w) :=
  ⟨fun _ _ => rfl, fun p h => by cases p <;> simp_all [samePart]⟩

theorem frame_setResultFlag (s : State) (x : Nibble) (r : Byte) (c : Bool) :
    Frame [x, vf] [] s (s.advance.setResultFlag x r c) :=
  ⟨fun q h => by
    simp only [List.mem_cons, List.not_mem_nil, or_false, not_or] at h
    rw [State.reg_setResultFlag, if_neg h.2, if_neg h.1]; rfl,
   fun p _ => by cases p <;> simp [samePart]⟩

theorem frame_setBlit (s : State) (w : Blit) : Frame [vf] [.pixels] s (s.advance.setBlit w) :=
  ⟨fun q h => by simp only [List.mem_singleton] at h; rw [State.reg_setBlit, if_neg h]; rfl,
   fun p h => by cases p <;> simp_all [samePart]⟩

theorem frame_storeBytes (s : State) (a : Nat) (bs : List Byte) : Frame [] [.memory] s (s.advance.storeBytes a bs) :=
  ⟨fun _ _ => rfl, fun p h => by cases p <;> simp_all [samePart]⟩

end Sys2Proof.Machine
end

