-- ==== Sys2Proof/Laws/Display.lean ====
section
/-! SUPPORT. One pixel after a toggle, after a sprite bit, and on a blank screen. -/

namespace Sys2Proof.Machine

/-- A toggle changes its own pixel and no other. -/
theorem pixelAt_flipPixel (fb : Framebuffer) (x x' : Fin 64) (y y' : Fin 32) :
    pixelAt (flipPixel fb x y) x' y' = if x' = x ∧ y' = y then !pixelAt fb x y else pixelAt fb x' y' := by
  simp only [pixelAt, flipPixel, Fin.getElem_fin, Vector.getElem_set, Fin.ext_iff]
  by_cases hx : x.val = x'.val
  · by_cases hy : y.val = y'.val
    · simp [hx, hy]
    · simp [hx, hy, show ¬y'.val = y.val from fun h => hy h.symm]
  · simp [hx, show ¬x'.val = x.val from fun h => hx h.symm]

/-- R110: every pixel of the blank screen is 0. -/
@[simp] theorem pixelAt_blankFb (x : Fin 64) (y : Fin 32) : pixelAt blankFb x y = false := by
  simp [pixelAt, blankFb]

/-- R111: the framebuffer after one sprite bit. -/
theorem blitBit_pixel (x0 y0 b : Byte) (row col : Nat) (w : Blit) (px : Fin 64) (py : Fin 32) :
    pixelAt (blitBit x0 y0 row b w col).fb px py =
      (pixelAt w.fb px py ^^ (spriteBit b col && decide (px = wrapX x0 col) && decide (py = wrapY y0 row))) := by
  unfold blitBit
  split
  · rename_i h
    simp only [pixelAt_flipPixel, h, Bool.true_and]
    by_cases hx : px = wrapX x0 col <;> by_cases hy : py = wrapY y0 row <;> simp [hx, hy]
  · rename_i h
    simp [h]

/-- R111: the collision after one sprite bit. -/
theorem blitBit_collision (x0 y0 b : Byte) (row col : Nat) (w : Blit) :
    (blitBit x0 y0 row b w col).collision =
      (w.collision || (spriteBit b col && pixelAt w.fb (wrapX x0 col) (wrapY y0 row))) := by
  unfold blitBit
  split <;> rename_i h <;> simp [h]

/-- One of the first `k` columns of a sprite row has a 1 bit that lands on the pixel. -/
def rowHits (x0 y0 : Byte) (row : Nat) (b : Byte) (k : Nat) (px : Fin 64) (py : Fin 32) : Bool :=
  (List.range k).any fun col => spriteBit b col && decide (px = wrapX x0 col) && decide (py = wrapY y0 row)

/-- One of the first `k` columns of a sprite row has a 1 bit that lands on a pixel set in `fb`. -/
def rowMeets (x0 y0 : Byte) (row : Nat) (b : Byte) (k : Nat) (fb : Framebuffer) : Bool :=
  (List.range k).any fun col => spriteBit b col && pixelAt fb (wrapX x0 col) (wrapY y0 row)

/-- A row of the sprite that starts at `row` has a 1 bit that lands on the pixel. -/
def spriteHits (x0 y0 : Byte) (row : Nat) : List Byte → Fin 64 → Fin 32 → Bool
  | [], _, _ => false
  | b :: bs, px, py => rowHits x0 y0 row b 8 px py || spriteHits x0 y0 (row + 1) bs px py

/-- A row of the sprite that starts at `row` has a 1 bit that lands on a pixel set in `fb`. -/
def spriteMeets (x0 y0 : Byte) (row : Nat) : List Byte → Framebuffer → Bool
  | [], _ => false
  | b :: bs, fb => rowMeets x0 y0 row b 8 fb || spriteMeets x0 y0 (row + 1) bs fb

/-- R112: the 8 columns of a sprite row land on 8 different columns of the framebuffer. -/
theorem wrapX_inj (x0 : Byte) {c d : Nat} (hc : c < 8) (hd : d < 8) (h : wrapX x0 c = wrapX x0 d) : c = d := by
  have := congrArg Fin.val h
  simp only [wrapX, Fin.val_ofNat] at this; omega

/-- R112: rows less than 32 apart land on different rows of the framebuffer. -/
theorem wrapY_inj (y0 : Byte) {r q : Nat} (hq : q < r + 32) (hr : r < q + 32) (h : wrapY y0 r = wrapY y0 q) : r = q := by
  have := congrArg Fin.val h
  simp only [wrapY, Fin.val_ofNat] at this; omega

theorem rowHits_succ (x0 y0 : Byte) (row : Nat) (b : Byte) (k : Nat) (px : Fin 64) (py : Fin 32) :
    rowHits x0 y0 row b (k + 1) px py =
      (rowHits x0 y0 row b k px py || (spriteBit b k && decide (px = wrapX x0 k) && decide (py = wrapY y0 row))) := by
  simp [rowHits, List.range_succ]

theorem rowMeets_succ (x0 y0 : Byte) (row : Nat) (b : Byte) (k : Nat) (fb : Framebuffer) :
    rowMeets x0 y0 row b (k + 1) fb =
      (rowMeets x0 y0 row b k fb || (spriteBit b k && pixelAt fb (wrapX x0 k) (wrapY y0 row))) := by
  simp [rowMeets, List.range_succ]

/-- A hit says in which framebuffer column and row the pixel is. -/
theorem rowHits_place {x0 y0 : Byte} {row : Nat} {b : Byte} {k : Nat} {px : Fin 64} {py : Fin 32}
    (h : rowHits x0 y0 row b k px py = true) :
    ∃ col < k, spriteBit b col = true ∧ px = wrapX x0 col ∧ py = wrapY y0 row := by
  simp only [rowHits, List.any_eq_true, List.mem_range, Bool.and_eq_true, decide_eq_true_eq] at h
  obtain ⟨col, hk, ⟨hb, hx⟩, hy⟩ := h
  exact ⟨col, hk, hb, hx, hy⟩

/-- R111: the first `k` columns of a sprite row toggle exactly the pixels they hit, and collide exactly if one of
those was set before the row. -/
theorem blitColumns_spec (x0 y0 : Byte) (row : Nat) (b : Byte) (w : Blit) (k : Nat) (hk : k ≤ 8) :
    (∀ px py, pixelAt ((List.range k).foldl (blitBit x0 y0 row b) w).fb px py =
      (pixelAt w.fb px py ^^ rowHits x0 y0 row b k px py)) ∧
    ((List.range k).foldl (blitBit x0 y0 row b) w).collision = (w.collision || rowMeets x0 y0 row b k w.fb) := by
  induction k with
  | zero => simp [rowHits, rowMeets]
  | succ k ih =>
    obtain ⟨pixels, collides⟩ := ih (by omega)
    have fresh : ∀ py, rowHits x0 y0 row b k (wrapX x0 k) py = false := fun py => by
      rw [Bool.eq_false_iff]
      intro h
      obtain ⟨col, hcol, -, hx, -⟩ := rowHits_place h
      exact absurd (wrapX_inj x0 (by omega) (by omega) hx) (by omega)
    simp only [List.range_succ, List.foldl_append, List.foldl_cons, List.foldl_nil]
    refine ⟨fun px py => ?_, ?_⟩
    · rw [blitBit_pixel, pixels, rowHits_succ, Bool.xor_assoc]
      by_cases hx : px = wrapX x0 k
      · subst hx; simp [fresh]
      · simp [hx]
    · rw [blitBit_collision, collides, pixels, fresh, rowMeets_succ, Bool.xor_false, Bool.or_assoc]

/-- R111: what the whole blit engine does. Each pixel is toggled exactly if the sprite hits it, and there is a
collision exactly if it hits a pixel that was set. -/
theorem blitRows_spec (x0 y0 : Byte) (bs : List Byte) (row : Nat) (w : Blit) (hl : bs.length ≤ 15) :
    (∀ px py, pixelAt (blitRows x0 y0 row bs w).fb px py = (pixelAt w.fb px py ^^ spriteHits x0 y0 row bs px py)) ∧
    (blitRows x0 y0 row bs w).collision = (w.collision || spriteMeets x0 y0 row bs w.fb) := by
  induction bs generalizing row w with
  | nil => simp [blitRows, spriteHits, spriteMeets]
  | cons b bs ih =>
    simp only [List.length_cons] at hl
    obtain ⟨pixels, collides⟩ := blitColumns_spec x0 y0 row b w 8 (Nat.le_refl 8)
    obtain ⟨rest, restCollides⟩ := ih (row + 1) (blitRow x0 y0 row b w) (by omega)
    have later : ∀ (cs : List Byte) (q : Nat), row < q → q + cs.length ≤ row + 16 →
        (∀ px, spriteHits x0 y0 q cs px (wrapY y0 row) = false) ∧
        spriteMeets x0 y0 q cs (blitRow x0 y0 row b w).fb = spriteMeets x0 y0 q cs w.fb := by
      intro cs
      induction cs with
      | nil => intros; exact ⟨fun _ => rfl, rfl⟩
      | cons c cs ihc =>
        intro q hq hlen
        simp only [List.length_cons] at hlen
        obtain ⟨hits, meets⟩ := ihc (q + 1) (by omega) (by omega)
        have apart : wrapY y0 row ≠ wrapY y0 q := fun h =>
          absurd (wrapY_inj y0 (by omega) (by omega) h) (by omega)
        have pixelsKept : ∀ px, pixelAt (blitRow x0 y0 row b w).fb px (wrapY y0 q) = pixelAt w.fb px (wrapY y0 q) := by
          intro px
          have miss : rowHits x0 y0 row b 8 px (wrapY y0 q) = false := by
            rw [Bool.eq_false_iff]
            intro h
            obtain ⟨_, _, -, -, hy⟩ := rowHits_place h
            exact apart hy.symm
          have := pixels px (wrapY y0 q)
          rwa [miss, Bool.xor_false] at this
        refine ⟨fun px => ?_, ?_⟩
        · have miss : rowHits x0 y0 q c 8 px (wrapY y0 row) = false := by
            rw [Bool.eq_false_iff]
            intro h
            obtain ⟨_, _, -, -, hy⟩ := rowHits_place h
            exact apart hy
          rw [spriteHits, miss, hits, Bool.or_false]
        · simp only [spriteMeets, rowMeets, pixelsKept, meets]
    obtain ⟨laterHits, laterMeets⟩ := later bs (row + 1) (by omega) (by omega)
    refine ⟨fun px py => ?_, ?_⟩
    · have hrow := pixels px py
      rw [blitRows, rest, show pixelAt (blitRow x0 y0 row b w).fb px py = _ from hrow, spriteHits, Bool.xor_assoc]
      congr 1
      by_cases hy : py = wrapY y0 row
      · subst hy; simp [laterHits]
      · have miss : rowHits x0 y0 row b 8 px py = false := by
          rw [Bool.eq_false_iff]
          intro h
          obtain ⟨_, _, -, -, h'⟩ := rowHits_place h
          exact hy h'
        simp [miss]
    · rw [blitRows, restCollides, laterMeets, show (blitRow x0 y0 row b w).collision = _ from collides, spriteMeets,
        Bool.or_assoc]

/-- A hit, as the row and the column of the sprite that make it. -/
theorem spriteHits_iff (x0 y0 : Byte) (bs : List Byte) (row : Nat) (px : Fin 64) (py : Fin 32) :
    spriteHits x0 y0 row bs px py = true ↔
      ∃ j col, ∃ h : j < bs.length, col < 8 ∧ spriteBit bs[j] col = true ∧ px = wrapX x0 col ∧ py = wrapY y0 (row + j) := by
  induction bs generalizing row with
  | nil => simp [spriteHits]
  | cons b bs ih =>
    rw [spriteHits, Bool.or_eq_true, ih]
    constructor
    · rintro (h | ⟨j, col, h, hc, hb, hx, hy⟩)
      · obtain ⟨col, hc, hb, hx, hy⟩ := rowHits_place h
        exact ⟨0, col, by simp, hc, hb, hx, hy⟩
      · exact ⟨j + 1, col, by simpa using h, hc, hb, hx, by rw [hy]; congr 1; omega⟩
    · rintro ⟨j, col, h, hc, hb, hx, hy⟩
      cases j with
      | zero => exact .inl (List.any_eq_true.2 ⟨col, List.mem_range.2 hc, by simp_all⟩)
      | succ j => exact .inr ⟨j, col, by simpa using h, hc, hb, hx, by rw [hy]; congr 1; omega⟩

/-- A collision, as a hit on a pixel that was set. -/
theorem spriteMeets_iff (x0 y0 : Byte) (bs : List Byte) (row : Nat) (fb : Framebuffer) :
    spriteMeets x0 y0 row bs fb = true ↔ ∃ px py, spriteHits x0 y0 row bs px py = true ∧ pixelAt fb px py = true := by
  induction bs generalizing row with
  | nil => simp [spriteMeets, spriteHits]
  | cons b bs ih =>
    simp only [spriteMeets, spriteHits, Bool.or_eq_true, ih]
    constructor
    · rintro (h | ⟨px, py, h, hp⟩)
      · simp only [rowMeets, List.any_eq_true, List.mem_range, Bool.and_eq_true] at h
        obtain ⟨col, hc, hb, hp⟩ := h
        exact ⟨_, _, .inl (List.any_eq_true.2 ⟨col, List.mem_range.2 hc, by simp [hb]⟩), hp⟩
      · exact ⟨px, py, .inr h, hp⟩
    · rintro ⟨px, py, h | h, hp⟩
      · obtain ⟨col, hc, hb, rfl, rfl⟩ := rowHits_place h
        exact .inl (List.any_eq_true.2 ⟨col, List.mem_range.2 hc, by simp [hb, hp]⟩)
      · exact .inr ⟨px, py, h, hp⟩

end Sys2Proof.Machine
end

