-- ==== Sys2Proof/Laws/Flags.lean ====
section
/-! SUPPORT. The flags as numbers (R86 to R91). -/

namespace Sys2Proof.Machine

theorem vf_eq : vf = 15 := rfl

theorem flagByte_toNat (c : Bool) : (flagByte c).toNat = if c = true then 1 else 0 := by cases c <;> rfl

theorem lowBit_toNat (a : Byte) : (if lowBit a = true then 1 else 0) = a.toNat % 2 := by
  have h : lowBit a = decide (a.toNat % 2 = 1) := by simp [lowBit, BitVec.getLsbD]
  rw [h]; have := Nat.mod_two_eq_zero_or_one a.toNat
  split <;> simp_all

theorem highBit_toNat (a : Byte) : (if highBit a = true then 1 else 0) = a.toNat / 128 := by
  have h : highBit a = decide (a.toNat / 128 % 2 = 1) := by
    simp [highBit, BitVec.getLsbD, Nat.testBit, Nat.shiftRight_eq_div_pow]
    exact Bool.beq_eq_decide_eq _ _
  rw [h]; have := a.isLt
  split <;> rename_i h <;> simp only [decide_eq_true_eq] at h <;> omega

/-- R92, in numbers: VF holds the flag. -/
theorem State.setResultFlag_vf (s : State) (x : Nibble) (r : Byte) (c : Bool) :
    ((s.setResultFlag x r c).reg 15).toNat = if c = true then 1 else 0 := by
  rw [State.reg_setResultFlag, vf_eq, if_pos rfl, flagByte_toNat]

/-- R92: `V[x]` holds the result unless it is VF. -/
theorem State.setResultFlag_result (s : State) {x : Nibble} (r : Byte) (c : Bool) (h : x ≠ 15) :
    (s.setResultFlag x r c).reg x = r := by
  rw [State.reg_setResultFlag, vf_eq, if_neg h, if_pos rfl]

end Sys2Proof.Machine
end

