-- ==== Sys2Proof/Laws/PerInstr.lean ====
section
/-! SUPPORT. For every instruction, one lemma: its encoding has every fixed bit of its row of the opcode table (R53,
R54), and the word of an UNKNOWN meets no row. -/

namespace Sys2Proof.Laws

theorem packNNN_masked (c : Nibble) (nnn : Addr) : packNNN c nnn &&& 0xF000#16 = packNNN c 0#12 := by
  have h : packNNN c nnn &&& (0xF#4 ++ 0#12 : BitVec 16) = (c &&& 0xF#4) ++ (nnn &&& 0#12) := BitVec.and_append
  have h1 : c &&& 0xF#4 = c := BitVec.and_allOnes
  have h2 : nnn &&& 0#12 = 0#12 := BitVec.and_zero
  rw [h1, h2] at h
  exact h

theorem packXKK_masked (c x : Nibble) (kk : Byte) : packXKK c x kk &&& 0xF000#16 = packNNN c 0#12 :=
  packNNN_masked c (x ++ kk)

theorem packXYN_highMasked (c x y n : Nibble) : packXYN c x y n &&& 0xF000#16 = packNNN c 0#12 :=
  packNNN_masked c (x ++ (y ++ n))

theorem packXYN_masked (c x y n : Nibble) : packXYN c x y n &&& 0xF00F#16 = packXYN c 0#4 0#4 n := by
  have h : packXYN c x y n &&& (0xF#4 ++ (0#4 ++ (0#4 ++ 0xF#4)) : BitVec 16) =
      (c &&& 0xF#4) ++ ((x ++ (y ++ n)) &&& (0#4 ++ (0#4 ++ 0xF#4))) := BitVec.and_append
  have h1 : c &&& 0xF#4 = c := BitVec.and_allOnes
  have h2 : n &&& 0xF#4 = n := BitVec.and_allOnes
  rw [h1, BitVec.and_append, BitVec.and_append, h2, BitVec.and_zero, BitVec.and_zero] at h
  exact h

theorem packXKK_lowMasked (c x : Nibble) (kk : Byte) : packXKK c x kk &&& 0xF0FF#16 = packXKK c 0#4 kk := by
  have h : packXKK c x kk &&& (0xF#4 ++ (0#4 ++ 0xFF#8) : BitVec 16) =
      (c &&& 0xF#4) ++ ((x ++ kk) &&& (0#4 ++ 0xFF#8)) := BitVec.and_append
  have h1 : c &&& 0xF#4 = c := BitVec.and_allOnes
  have h2 : kk &&& 0xFF#8 = kk := BitVec.and_allOnes
  rw [h1, BitVec.and_append, h2, BitVec.and_zero] at h
  exact h

end Sys2Proof.Laws

/-- The encoding of a well-formed instruction meets the row of the opcode table its mnemonic names; the word of an
UNKNOWN meets no row. -/
def Sys2Proof.Laws.MatchesRow.Statement (i : Sys2Proof.Instr) : Prop :=
  i.wellFormed = true →
    (∀ r ∈ Sys2Proof.opcodeRows, r.mnemonic = Sys2Proof.mnemonic i → Sys2Proof.opcodeHit r (Sys2Proof.encode i) = true) ∧
    (Sys2Proof.mnemonic i = "UNKNOWN" → Sys2Proof.isUnknownWord (Sys2Proof.encode i) = true)

namespace Sys2Proof.Laws

/-- The statement for a defined instruction, from the one row that has its mnemonic. -/
theorem matchesRow_of_row {i : Instr} (row : OpcodeRow)
    (own : opcodeRows.all (fun r => r.mnemonic != mnemonic i || r == row) = true)
    (defined : (mnemonic i == "UNKNOWN") = false) (meets : encode i &&& row.mask = row.pattern) :
    MatchesRow.Statement i := by
  refine fun _ => ⟨fun r hr hm => ?_, fun h => by simp [h] at defined⟩
  have := List.all_eq_true.1 own r hr
  simp only [hm, bne_self_eq_false, Bool.false_or, beq_iff_eq] at this
  subst this
  simp [opcodeHit, meets]

theorem MatchesRow.cls : MatchesRow.Statement .cls :=
  matchesRow_of_row ⟨"CLS", 0xFFFF, 0x00E0⟩ rfl rfl rfl
theorem MatchesRow.ret : MatchesRow.Statement .ret :=
  matchesRow_of_row ⟨"RET", 0xFFFF, 0x00EE⟩ rfl rfl rfl
theorem MatchesRow.jp (nnn : Addr) : MatchesRow.Statement (.jp nnn) :=
  matchesRow_of_row ⟨"JP_nnn", 0xF000, 0x1000⟩ rfl rfl (packNNN_masked _ _)
theorem MatchesRow.call (nnn : Addr) : MatchesRow.Statement (.call nnn) :=
  matchesRow_of_row ⟨"CALL_nnn", 0xF000, 0x2000⟩ rfl rfl (packNNN_masked _ _)
theorem MatchesRow.seImm (x : Nibble) (kk : Byte) : MatchesRow.Statement (.seImm x kk) :=
  matchesRow_of_row ⟨"SE_Vx__kk", 0xF000, 0x3000⟩ rfl rfl (packXKK_masked _ _ _)
theorem MatchesRow.sneImm (x : Nibble) (kk : Byte) : MatchesRow.Statement (.sneImm x kk) :=
  matchesRow_of_row ⟨"SNE_Vx__kk", 0xF000, 0x4000⟩ rfl rfl (packXKK_masked _ _ _)
theorem MatchesRow.seReg (x y : Nibble) : MatchesRow.Statement (.seReg x y) :=
  matchesRow_of_row ⟨"SE_Vx__Vy", 0xF00F, 0x5000⟩ rfl rfl (packXYN_masked _ _ _ _)
theorem MatchesRow.ldImm (x : Nibble) (kk : Byte) : MatchesRow.Statement (.ldImm x kk) :=
  matchesRow_of_row ⟨"LD_Vx__kk", 0xF000, 0x6000⟩ rfl rfl (packXKK_masked _ _ _)
theorem MatchesRow.addImm (x : Nibble) (kk : Byte) : MatchesRow.Statement (.addImm x kk) :=
  matchesRow_of_row ⟨"ADD_Vx__kk", 0xF000, 0x7000⟩ rfl rfl (packXKK_masked _ _ _)
theorem MatchesRow.ldReg (x y : Nibble) : MatchesRow.Statement (.ldReg x y) :=
  matchesRow_of_row ⟨"LD_Vx__Vy", 0xF00F, 0x8000⟩ rfl rfl (packXYN_masked _ _ _ _)
theorem MatchesRow.orReg (x y : Nibble) : MatchesRow.Statement (.orReg x y) :=
  matchesRow_of_row ⟨"OR_Vx__Vy", 0xF00F, 0x8001⟩ rfl rfl (packXYN_masked _ _ _ _)
theorem MatchesRow.andReg (x y : Nibble) : MatchesRow.Statement (.andReg x y) :=
  matchesRow_of_row ⟨"AND_Vx__Vy", 0xF00F, 0x8002⟩ rfl rfl (packXYN_masked _ _ _ _)
theorem MatchesRow.xorReg (x y : Nibble) : MatchesRow.Statement (.xorReg x y) :=
  matchesRow_of_row ⟨"XOR_Vx__Vy", 0xF00F, 0x8003⟩ rfl rfl (packXYN_masked _ _ _ _)
theorem MatchesRow.addReg (x y : Nibble) : MatchesRow.Statement (.addReg x y) :=
  matchesRow_of_row ⟨"ADD_Vx__Vy", 0xF00F, 0x8004⟩ rfl rfl (packXYN_masked _ _ _ _)
theorem MatchesRow.sub (x y : Nibble) : MatchesRow.Statement (.sub x y) :=
  matchesRow_of_row ⟨"SUB_Vx__Vy", 0xF00F, 0x8005⟩ rfl rfl (packXYN_masked _ _ _ _)
theorem MatchesRow.shr (x y : Nibble) : MatchesRow.Statement (.shr x y) :=
  matchesRow_of_row ⟨"SHR_Vx", 0xF00F, 0x8006⟩ rfl rfl (packXYN_masked _ _ _ _)
theorem MatchesRow.subn (x y : Nibble) : MatchesRow.Statement (.subn x y) :=
  matchesRow_of_row ⟨"SUBN_Vx__Vy", 0xF00F, 0x8007⟩ rfl rfl (packXYN_masked _ _ _ _)
theorem MatchesRow.shl (x y : Nibble) : MatchesRow.Statement (.shl x y) :=
  matchesRow_of_row ⟨"SHL_Vx", 0xF00F, 0x800E⟩ rfl rfl (packXYN_masked _ _ _ _)
theorem MatchesRow.sneReg (x y : Nibble) : MatchesRow.Statement (.sneReg x y) :=
  matchesRow_of_row ⟨"SNE_Vx__Vy", 0xF00F, 0x9000⟩ rfl rfl (packXYN_masked _ _ _ _)
theorem MatchesRow.ldI (nnn : Addr) : MatchesRow.Statement (.ldI nnn) :=
  matchesRow_of_row ⟨"LD_I__nnn", 0xF000, 0xA000⟩ rfl rfl (packNNN_masked _ _)
theorem MatchesRow.jpV0 (nnn : Addr) : MatchesRow.Statement (.jpV0 nnn) :=
  matchesRow_of_row ⟨"JP_V0__nnn", 0xF000, 0xB000⟩ rfl rfl (packNNN_masked _ _)
theorem MatchesRow.rnd (x : Nibble) (kk : Byte) : MatchesRow.Statement (.rnd x kk) :=
  matchesRow_of_row ⟨"RND_Vx__kk", 0xF000, 0xC000⟩ rfl rfl (packXKK_masked _ _ _)
theorem MatchesRow.drw (x y n : Nibble) : MatchesRow.Statement (.drw x y n) :=
  matchesRow_of_row ⟨"DRW_Vx__Vy__n", 0xF000, 0xD000⟩ rfl rfl (packXYN_highMasked _ _ _ _)
theorem MatchesRow.skp (x : Nibble) : MatchesRow.Statement (.skp x) :=
  matchesRow_of_row ⟨"SKP_Vx", 0xF0FF, 0xE09E⟩ rfl rfl (packXKK_lowMasked _ _ _)
theorem MatchesRow.sknp (x : Nibble) : MatchesRow.Statement (.sknp x) :=
  matchesRow_of_row ⟨"SKNP_Vx", 0xF0FF, 0xE0A1⟩ rfl rfl (packXKK_lowMasked _ _ _)
theorem MatchesRow.ldVxDt (x : Nibble) : MatchesRow.Statement (.ldVxDt x) :=
  matchesRow_of_row ⟨"LD_Vx__DT", 0xF0FF, 0xF007⟩ rfl rfl (packXKK_lowMasked _ _ _)
theorem MatchesRow.ldVxK (x : Nibble) : MatchesRow.Statement (.ldVxK x) :=
  matchesRow_of_row ⟨"LD_Vx__K", 0xF0FF, 0xF00A⟩ rfl rfl (packXKK_lowMasked _ _ _)
theorem MatchesRow.ldDtVx (x : Nibble) : MatchesRow.Statement (.ldDtVx x) :=
  matchesRow_of_row ⟨"LD_DT__Vx", 0xF0FF, 0xF015⟩ rfl rfl (packXKK_lowMasked _ _ _)
theorem MatchesRow.ldStVx (x : Nibble) : MatchesRow.Statement (.ldStVx x) :=
  matchesRow_of_row ⟨"LD_ST__Vx", 0xF0FF, 0xF018⟩ rfl rfl (packXKK_lowMasked _ _ _)
theorem MatchesRow.addI (x : Nibble) : MatchesRow.Statement (.addI x) :=
  matchesRow_of_row ⟨"ADD_I__Vx", 0xF0FF, 0xF01E⟩ rfl rfl (packXKK_lowMasked _ _ _)
theorem MatchesRow.ldF (x : Nibble) : MatchesRow.Statement (.ldF x) :=
  matchesRow_of_row ⟨"LD_F__Vx", 0xF0FF, 0xF029⟩ rfl rfl (packXKK_lowMasked _ _ _)
theorem MatchesRow.ldB (x : Nibble) : MatchesRow.Statement (.ldB x) :=
  matchesRow_of_row ⟨"LD_B__Vx", 0xF0FF, 0xF033⟩ rfl rfl (packXKK_lowMasked _ _ _)
theorem MatchesRow.ldMemVx (x : Nibble) : MatchesRow.Statement (.ldMemVx x) :=
  matchesRow_of_row ⟨"LD__I___Vx", 0xF0FF, 0xF055⟩ rfl rfl (packXKK_lowMasked _ _ _)
theorem MatchesRow.ldVxMem (x : Nibble) : MatchesRow.Statement (.ldVxMem x) :=
  matchesRow_of_row ⟨"LD_Vx___I", 0xF0FF, 0xF065⟩ rfl rfl (packXKK_lowMasked _ _ _)
theorem MatchesRow.unknown (op : Word) : MatchesRow.Statement (.unknown op) := by
  refine fun h => ⟨fun r hr hm => ?_, fun _ => h⟩
  have named : opcodeRows.all (fun r => r.mnemonic != "UNKNOWN") = true := rfl
  have := List.all_eq_true.1 named r hr
  simp [mnemonic] at hm
  simp [hm] at this

end Sys2Proof.Laws
end

