-- ==== Sys2Proof/Laws/Step.lean ====
section
/-! SUPPORT. What a STEP can do, said once; and that no instruction stops the machine. -/

namespace Sys2Proof.Machine

/-- The three ways a STEP goes (R55): a faulted CORE, a fetch past the end of memory, a decoded instruction. -/
theorem step_cases (s : State) :
    ((∃ k, s.fault = some k) ∧ step s = .next s) ∨
    (s.fault = none ∧ 0xFFE < s.pc.toNat ∧ step s = .next { s with fault := some .outOfBounds }) ∨
    (s.fault = none ∧ s.pc.toNat ≤ 0xFFE ∧
      step s = exec (decode (bigEndian (s.memRead s.pc.toNat) (s.memRead (s.pc.toNat + 1)))) s) := by
  cases hf : s.fault with
  | some k => exact .inl ⟨⟨k, rfl⟩, by simp [step, hf]⟩
  | none =>
    by_cases hp : s.pc.toNat ≤ 0xFFE
    · exact .inr (.inr ⟨rfl, hp, by simp [step, hf, State.fetch_ok s hp]⟩)
    · exact .inr (.inl ⟨rfl, by omega, by simp [step, hf, State.fetch_error s (by omega), raiseFault]⟩)

/-- What an execute phase that can fault ends in, said of one state: a next state reached without a fault, or the
state before with FAULT set. -/
theorem conclude_next {s t : State} {r : Except Fault State} (h : conclude s r = .next t) :
    r = .ok t ∨ ∃ k, r = .error k ∧ t = { s with fault := some k } := by
  cases r with
  | ok u => exact .inl (by simpa using h)
  | error k => exact .inr ⟨k, rfl, by simpa using h.symm⟩

end Sys2Proof.Machine
end

