-- ==== Sys2Proof/Tests/Slice0.lean ====
section
/-! SUPPORT. Tests. Expected values are the spec's own: its encodings (R51, R53), the source's worked examples S1 to
S10 and the hand-computed vectors V1 to V114 of `95_test_vectors.md`, whose number each test's comment names; and for
every statement with hypotheses a state and operands that meet them. -/

namespace Sys2Proof.Machine.Tests

/-- RESET state with an instruction word at pc, as the vectors have it. -/
def start (op : Nat) : State := State.reset.withFetchWord 16 op

/-- The state one STEP reaches. -/
def after (s : State) : State :=
  match step s with
  | .next t => t
  | .fault _ => s
  | .refused _ => s

/-- Registers set from a list. -/
def withRegs (s : State) : List (Nibble × Byte) → State
  | [] => s
  | (r, b) :: l => withRegs (s.setReg r b) l

/-- Bytes stored in memory. -/
def withBytes (s : State) (a : Nat) (bs : List Byte) : State := s.storeBytes a bs

/-! ### Well-formedness and encoding -/

/-- The one check refuses an UNKNOWN whose word is a defined instruction (CLS), and takes one that is not (R54). -/
theorem test_wellFormed_unknown :
    (Instr.unknown 0x00E0).wellFormed = false ∧ (Instr.unknown 0x5123).wellFormed = true := by decide

/-- Words of R53 written out bit by bit, c x y n. -/
theorem test_decode_control :
    decode 0b0000000011101110#16 = .ret ∧ decode 0b0001011100100111#16 = .jp 0x727 ∧
    decode 0b0010011100100111#16 = .call 0x727 ∧ decode 0b1011001100000000#16 = .jpV0 0x300 ∧
    decode 0b0011001100101010#16 = .seImm 3 0x2A ∧ decode 0b0100001100101011#16 = .sneImm 3 0x2B ∧
    decode 0b0101000100100000#16 = .seReg 1 2 ∧ decode 0b1001000100100000#16 = .sneReg 1 2 := by decide

theorem test_decode_alu :
    decode 0b0110010100101010#16 = .ldImm 5 0x2A ∧ decode 0b0111000111111111#16 = .addImm 1 0xFF ∧
    decode 0b1000000100100000#16 = .ldReg 1 2 ∧ decode 0b1000000100100001#16 = .orReg 1 2 ∧
    decode 0b1000000100100010#16 = .andReg 1 2 ∧ decode 0b1000000100100011#16 = .xorReg 1 2 ∧
    decode 0b1000000100100100#16 = .addReg 1 2 ∧ decode 0b1000000100100101#16 = .sub 1 2 ∧
    decode 0b1000000100100110#16 = .shr 1 2 ∧ decode 0b1000000100100111#16 = .subn 1 2 ∧
    decode 0b1000000100101110#16 = .shl 1 2 := by decide

theorem test_decode_index :
    decode 0b1010001100000000#16 = .ldI 0x300 ∧ decode 0b1111001000011110#16 = .addI 2 ∧
    decode 0b1111001100101001#16 = .ldF 3 ∧ decode 0b1111010100110011#16 = .ldB 5 ∧
    decode 0b1111111101010101#16 = .ldMemVx 15 ∧ decode 0b1111001001100101#16 = .ldVxMem 2 := by decide

theorem test_decode_devices :
    decode 0b0000000011100000#16 = .cls ∧ decode 0b1101000000010101#16 = .drw 0 1 5 ∧
    decode 0b1110000110011110#16 = .skp 1 ∧ decode 0b1110000110100001#16 = .sknp 1 ∧
    decode 0b1111001100001010#16 = .ldVxK 3 ∧ decode 0b1111001000000111#16 = .ldVxDt 2 ∧
    decode 0b1111001000010101#16 = .ldDtVx 2 ∧ decode 0b1111001000011000#16 = .ldStVx 2 ∧
    decode 0b1100000100001111#16 = .rnd 1 0x0F := by decide

/-- R54's own examples of words that are UNKNOWN, and 0x0000 (R57). -/
theorem test_decode_unknown :
    decode 0x5121#16 = .unknown 0x5121 ∧ decode 0x8128#16 = .unknown 0x8128 ∧ decode 0x912F#16 = .unknown 0x912F ∧
    decode 0xE09F#16 = .unknown 0xE09F ∧ decode 0xF000#16 = .unknown 0xF000 ∧ decode 0#16 = .unknown 0 := by decide

/-- A list of fewer than two bytes holds no instruction; of three, the third is left over. -/
theorem test_decodeBytes :
    decodeBytes [0x00] = .error .truncated ∧ decodeBytes [0x27, 0x27, 0x55] = .ok (.call 0x727, [0x55]) := by decide

/-! ### Reset, fetch, UNKNOWN -/

/-- S1. -/
theorem test_reset : State.reset.pc = 0x200 ∧ State.reset.sp.val = 0 ∧ State.reset.dt = 0 ∧ State.reset.st = 0 ∧
    State.reset.memRead 0 = 0xF0 ∧ State.reset.memRead 0x4F = 0x80 ∧ State.reset.memRead 0x50 = 0 := by decide
/-- V2. -/
theorem test_unknown : after (start 0x5123) = { start 0x5123 with pc := 0x202 } := by decide
/-- V3. -/
theorem test_unknown_8xy8 : (after (withRegs (start 0x8128) [(1, 3), (2, 4)])).reg 1 = 3 := by decide
/-- V5. -/
theorem test_fetch_last : after { State.reset with pc := 0xFFE } = { State.reset with pc := 0x1000 } := by decide
/-- V6, and R143. -/
theorem test_fetch_past : after { State.reset with pc := 0xFFF } =
      { State.reset with pc := 0xFFF, fault := some .outOfBounds } ∧
    after (after { State.reset with pc := 0xFFF }) = after { State.reset with pc := 0xFFF } := by decide
/-- V7. -/
theorem test_fetch_odd : (after { withBytes State.reset 0x201 [0x6A, 0x55] with pc := 0x201 }).reg 10 = 0x55 ∧
    (after { withBytes State.reset 0x201 [0x6A, 0x55] with pc := 0x201 }).pc = 0x203 := by decide

/-! ### Control transfer -/

/-- S2. -/
theorem test_ret : (after { start 0x00EE with stack := State.reset.stack.set 0 0x333, sp := 1 }).pc = 0x333 ∧
    (after { start 0x00EE with stack := State.reset.stack.set 0 0x333, sp := 1 }).sp.val = 0 := by decide
/-- V10. -/
theorem test_ret_empty : after (start 0x00EE) = { start 0x00EE with fault := some .stackUnderflow } := by decide
/-- S3. -/
theorem test_jp : (after (start 0x1727)).pc = 0x727 := by decide
/-- S4, V11. -/
theorem test_call : (after (start 0x2727)).sp.val = 1 ∧ (after (start 0x2727)).stack[0] = 0x202 ∧
    (after (start 0x2727)).pc = 0x727 ∧ (after { start 0x2727 with sp := 15 }).sp.val = 16 ∧
    (after { start 0x2727 with sp := 15 }).stack[15] = 0x202 := by decide
/-- V12. -/
theorem test_call_full : after { start 0x2727 with sp := 16 } =
    { start 0x2727 with sp := 16, fault := some .stackOverflow } := by decide
/-- V14, V15. -/
theorem test_jpV0 : (after (withRegs (start 0xB300) [(0, 0x10)])).pc = 0x310 ∧
    (after (withRegs (start 0xBFFF) [(0, 0xFF)])).pc = 0x10FE := by decide
/-- V16, V17. -/
theorem test_seImm : (after (withRegs (start 0x332A) [(3, 0x2A)])).pc = 0x204 ∧
    (after (withRegs (start 0x332B) [(3, 0x2A)])).pc = 0x202 := by decide
/-- V18, and R75's example. -/
theorem test_sneImm : (after (withRegs (start 0x432B) [(3, 0x2A)])).pc = 0x204 ∧
    (after (withRegs (start 0x432A) [(3, 0x2A)])).pc = 0x202 := by decide
/-- V19, and two different registers (R76). -/
theorem test_seReg : (after (withRegs (start 0x5120) [(1, 7), (2, 7)])).pc = 0x204 ∧
    (after (withRegs (start 0x5120) [(1, 7), (2, 8)])).pc = 0x202 := by decide
/-- V20, V21. -/
theorem test_sneReg : (after (withRegs (start 0x9120) [(1, 7), (2, 8)])).pc = 0x204 ∧
    (after (withRegs (start 0x9110) [(1, 7)])).pc = 0x202 := by decide

/-! ### Register arithmetic and logic -/

/-- V1, V2 and VF of the state after, as the vectors of 2.3 list them. -/
def regs12F (s : State) : Byte × Byte × Byte := (s.reg 1, s.reg 2, s.reg 15)

/-- V50, and R80's example. -/
theorem test_ldImm : (after (start 0x6F2A)).reg 15 = 0x2A ∧ (after (start 0x652A)).reg 5 = 0x2A := by decide
/-- V48, V49. -/
theorem test_addImm : regs12F (after (withRegs (start 0x7102) [(1, 0xFF), (15, 0x77)])) = (0x01, 0, 0x77) ∧
    (after (withRegs (start 0x7FFF) [(15, 1)])).reg 15 = 0 := by decide
/-- V55. -/
theorem test_ldReg : regs12F (after (withRegs (start 0x8120) [(2, 0x11)])) = (0x11, 0x11, 0) := by decide
/-- V51. -/
theorem test_orReg : regs12F (after (withRegs (start 0x8121) [(1, 0xF0), (2, 0x0F), (15, 0x55)])) =
    (0xFF, 0x0F, 0x55) := by decide
/-- V52. -/
theorem test_andReg : regs12F (after (withRegs (start 0x8122) [(1, 0xF0), (2, 0x3C), (15, 0x55)])) =
    (0x30, 0x3C, 0x55) := by decide
/-- V53. -/
theorem test_xorReg : regs12F (after (withRegs (start 0x8123) [(1, 0xF0), (2, 0x3C), (15, 0x55)])) =
    (0xCC, 0x3C, 0x55) := by decide
/-- S5, V31. -/
theorem test_addReg : regs12F (after (withRegs (start 0x8124) [(1, 0xFF), (2, 0x02)])) = (0x01, 0x02, 1) ∧
    regs12F (after (withRegs (start 0x8124) [(1, 0x01), (2, 0x01)])) = (0x02, 0x01, 0) := by decide
/-- V32, V33. -/
theorem test_addReg_vf : (after (withRegs (start 0x8F14) [(15, 0xFF), (1, 0x01)])).reg 15 = 1 ∧
    regs12F (after (withRegs (start 0x81F4) [(1, 0x10), (15, 0x01)])) = (0x11, 0, 0) := by decide
/-- S6, V34. -/
theorem test_sub : regs12F (after (withRegs (start 0x8125) [(1, 0x02), (2, 0x05)])) = (0xFD, 0x05, 0) ∧
    regs12F (after (withRegs (start 0x8125) [(1, 0x05), (2, 0x05)])) = (0x00, 0x05, 1) := by decide
/-- V36. -/
theorem test_sub_vf : (after (withRegs (start 0x8F15) [(15, 0x05), (1, 0x02)])).reg 15 = 1 := by decide
/-- V39, V37. -/
theorem test_shr : regs12F (after (withRegs (start 0x8126) [(1, 0x80), (2, 0xFF)])) = (0x40, 0xFF, 0) ∧
    regs12F (after (withRegs (start 0x8106) [(1, 0x05)])) = (0x02, 0, 1) := by decide
/-- V40. -/
theorem test_shr_vf : (after (withRegs (start 0x8F06) [(15, 0x03)])).reg 15 = 1 := by decide
/-- V41, V43. -/
theorem test_subn : regs12F (after (withRegs (start 0x8127) [(1, 0x05), (2, 0x02)])) = (0xFD, 0x02, 0) ∧
    regs12F (after (withRegs (start 0x8117) [(1, 0x09)])) = (0x00, 0, 1) := by decide
/-- V44, V45. -/
theorem test_shl : regs12F (after (withRegs (start 0x810E) [(1, 0x81)])) = (0x02, 0, 1) ∧
    regs12F (after (withRegs (start 0x810E) [(1, 0x7F)])) = (0xFE, 0, 0) := by decide
/-- V46, V47. -/
theorem test_shl_vf : (after (withRegs (start 0x8F0E) [(15, 0x40)])).reg 15 = 0 ∧
    (after (withRegs (start 0x8F0E) [(15, 0xC0)])).reg 15 = 1 := by decide

/-! ### The address register and memory -/

/-- V60. -/
theorem test_ldI : (after (start 0xA300)).i = 0x300 := by decide
/-- V62, V63. -/
theorem test_addI : (after (withRegs { start 0xF11E with i := 0x0FFF } [(1, 1)])).i = 0x1000 ∧
    (after (withRegs { start 0xF11E with i := 0xFFFF } [(1, 1)])).i = 0 := by decide
/-- V65, V66. -/
theorem test_ldF : (after (withRegs (start 0xF329) [(3, 0x10)])).i = 0x050 ∧
    (after (withRegs (start 0xF329) [(3, 0xFF)])).i = 0x4FB := by decide
/-- V67, V70. -/
theorem test_ldB :
    ([0x300, 0x301, 0x302].map (after (withRegs { start 0xF533 with i := 0x300 } [(5, 123)])).memRead) = [1, 2, 3] ∧
    ([0xFFD, 0xFFE, 0xFFF].map (after (withRegs { start 0xF533 with i := 0xFFD } [(5, 200)])).memRead) = [2, 0, 0] := by
  decide
/-- V71. -/
theorem test_ldB_past : after (withRegs { start 0xF533 with i := 0xFFE } [(5, 1)]) =
    { withRegs { start 0xF533 with i := 0xFFE } [(5, 1)] with fault := some .outOfBounds } := by decide

/-- V0..VF = A0..AF. -/
def a0af (s : State) : State := (List.range 16).foldl (fun t k => t.setReg (BitVec.ofNat 4 k) (BitVec.ofNat 8 (0xA0 + k))) s

/-- V72. -/
theorem test_ldMemVx : (after (a0af { start 0xFF55 with i := 0xFF0 })).memRead 0xFF0 = 0xA0 ∧
    (after (a0af { start 0xFF55 with i := 0xFF0 })).memRead 0xFFF = 0xAF ∧
    (after (a0af { start 0xFF55 with i := 0xFF0 })).i = 0xFF0 := by decide
/-- V73. -/
theorem test_ldMemVx_past : (after (a0af { start 0xFF55 with i := 0xFF1 })).fault = some .outOfBounds ∧
    (after (a0af { start 0xFF55 with i := 0xFF1 })).pc = 0x200 ∧
    (after (a0af { start 0xFF55 with i := 0xFF1 })).mem = (start 0xFF55).mem := by decide
/-- V74. -/
theorem test_ldVxMem : ([0, 1, 2, 3].map (after (withRegs { withBytes (start 0xF265) 0x300 [1, 2, 3, 4] with i := 0x300 }
    [(3, 0x33)])).reg) = [1, 2, 3, 0x33] := by decide
/-- V76. -/
theorem test_ldVxMem_past : after { start 0xF165 with i := 0xFFF } =
    { start 0xF165 with i := 0xFFF, fault := some .outOfBounds } := by decide

/-! ### Display -/

/-- V80. -/
theorem test_cls : pixelAt (after { start 0x00E0 with fb := flipPixel blankFb 5 5 }).fb 5 5 = false := by decide
/-- S8: the sprite's columns 1 to 7 wrap to framebuffer columns 0 to 6. -/
theorem test_drw_wrap :
    let t := after (withRegs { withBytes (start 0xD011) 0x300 [0xFF] with i := 0x300 } [(0, 63)])
    pixelAt t.fb 63 0 = true ∧ pixelAt t.fb 0 0 = true ∧ pixelAt t.fb 6 0 = true ∧ pixelAt t.fb 7 0 = false ∧
    t.reg 15 = 0 := by decide
/-- V81, and S7's second draw: a set pixel that is hit is cleared and VF is 1. -/
theorem test_drw_collision :
    let s := withRegs { withBytes (start 0xD012) 0x300 [0x80, 0x80] with i := 0x300 } [(0, 200), (1, 31)]
    pixelAt (after s).fb 8 31 = true ∧ pixelAt (after s).fb 8 0 = true ∧ (after s).reg 15 = 0 ∧
    (after { s with fb := flipPixel blankFb 8 0 }).reg 15 = 1 ∧
    pixelAt (after { s with fb := flipPixel blankFb 8 0 }).fb 8 0 = false := by decide
/-- V82, V84. -/
theorem test_drw_edges : after (withRegs (start 0xD010) [(15, 1)]) = { (start 0xD010) with pc := 0x202 } ∧
    (after { start 0xD012 with i := 0xFFF }).fault = some .outOfBounds := by decide

/-! ### Keyboard -/

/-- V90, V92. -/
theorem test_skp : (after (withRegs { start 0xE19E with keys := 0x0020 } [(1, 5)])).pc = 0x204 ∧
    (after (withRegs { start 0xE19E with keys := 0xFFFF } [(1, 16)])).pc = 0x202 := by decide
/-- V94, V95. -/
theorem test_sknp : (after (withRegs { start 0xE1A1 with keys := 0x0020 } [(1, 5)])).pc = 0x202 ∧
    (after (withRegs { start 0xE1A1 with keys := 0xFFFF } [(1, 16)])).pc = 0x204 := by decide
/-- V96. -/
theorem test_ldVxK_wait : after (start 0xF30A) = start 0xF30A := by decide
/-- V97, V98. -/
theorem test_ldVxK : (after { start 0xF30A with keys := 0x0120 }).reg 3 = 5 ∧
    (after { start 0xF30A with keys := 0x0120 }).pc = 0x202 ∧
    (after { start 0xFF0A with keys := 0x8000 }).reg 15 = 0x0F := by decide

/-! ### Timers and random -/

/-- V100. -/
theorem test_ldVxDt : (after { start 0xF207 with dt := 0x3C }).reg 2 = 0x3C := by decide
/-- V101. -/
theorem test_ldDtVx : (after (withRegs (start 0xF215) [(2, 0x3C)])).dt = 0x3C := by decide
/-- V102. -/
theorem test_ldStVx : (after (withRegs (start 0xF218) [(2, 5)])).st = 5 := by decide
/-- V103, V105, with the source's byte 0xA5. -/
theorem test_rnd :
    rndWith 0xA5 1 0x0F State.reset = .next { State.reset.advance.setReg 1 0x05 with draws := 1 } ∧
    rndWith 0xA5 1 0xFF State.reset = .next { State.reset.advance.setReg 1 0xA5 with draws := 1 } := by
  constructor <;> rfl
/-- V104: with kk = 0 the result is 0 whatever the source's byte is. -/
theorem test_rnd_zero : ∀ r : Byte, rndWith r 1 0#8 State.reset = .next { State.reset.advance.setReg 1 0 with draws := 1 } := by
  intro r; rw [rndWith, BitVec.and_zero]; rfl

/-! ### Host transactions -/

/-- V106. -/
theorem test_tick : (tick { State.reset with st := 2 }).st = 1 ∧ toneEdge { State.reset with st := 2 } = false ∧
    toneEdge (tick { State.reset with st := 2 }) = true ∧ (tick (tick { State.reset with st := 2 })).st = 0 ∧
    toneEdge State.reset = false ∧ tick State.reset = State.reset := by decide
/-- V113. -/
theorem test_tick_faulted : tick { State.reset with dt := 3, fault := some .stackOverflow } =
    { State.reset with dt := 2, fault := some .stackOverflow } := by decide
/-- V110, V111. -/
theorem test_key : (setKey State.reset 3 true).keys = 0x0008 ∧ (setKey (setKey State.reset 3 true) 3 false).keys = 0 ∧
    afterAll [.key 16 true] (some State.reset) = some State.reset := by decide
/-- V112, and a program's first bytes at 0x200 (R172). -/
theorem test_load : loadProgram State.reset [] = some State.reset ∧
    afterAll [.load [0x60, 0x00]] (some State.reset) = some { State.reset with mem := [(0x200, 0x60)] } := by decide
/-- S10: an image of 4096 - 0x200 + 1 bytes does not load. -/
theorem test_load_too_long : loadProgram State.reset (List.replicate 3585 0) = none := by
  rw [loadProgram, List.length_replicate]; rfl
/-- V114, and R171 before the first RESET. -/
theorem test_reset_transaction :
    afterAll [.reset defaultFont] (some { State.reset with pc := 7, fault := some .outOfBounds }) = some State.reset ∧
    afterAll [.tick, .reset defaultFont] none = some State.reset := by decide
/-- R157: index y * 64 + x holds FB[x][y]. -/
theorem test_snapshot : (fbSnapshot (flipPixel blankFb 5 2))[133] = true ∧ (fbSnapshot (flipPixel blankFb 5 2))[322] = false := by
  rw [fbSnapshot, Vector.getElem_ofFn, Vector.getElem_ofFn]; decide

/-! ### States and operands that meet the hypotheses of the statements -/

theorem witness_DecodeInvertsEncode : (Instr.drw 15 0 15).wellFormed = true ∧ (Instr.unknown 0xFFFF).wellFormed = true := by
  decide
theorem witness_DecoderFollowsTheTable :
    (∃ r ∈ opcodeRows, (0x8126 : Word) &&& r.mask = r.pattern) ∧ ∀ r ∈ opcodeRows, (0x8128 : Word) &&& r.mask ≠ r.pattern := by
  decide
theorem witness_StepRunsTheDecodedInstruction :
    State.reset.fault = none ∧ { State.reset with pc := 0xFFE }.pc.toNat ≤ 0xFFE := by decide
theorem witness_FetchReadsTwoBytesOrFaults :
    { State.reset with pc := 0xFFE }.pc.toNat + 1 ≤ 0xFFF ∧ { State.reset with pc := 0xFFF }.pc.toNat + 1 > 0xFFF ∧
    { State.reset with pc := 0xFFF }.fault = none := by decide
theorem witness_FaultEntryIsPrecise : (start 0x00EE).fault = none ∧
    step (start 0x00EE) = .next (after (start 0x00EE)) ∧ (after (start 0x00EE)).fault = some .stackUnderflow :=
  ⟨rfl, rfl, by decide⟩
/-- Each of the four ways to a fault, and a span that just fits. -/
theorem witness_FaultsHaveExactlyTheirCauses :
    (start 0x2727).fault = none ∧ (after { start 0x2727 with sp := 16 }).fault = some .stackOverflow ∧
    (after (start 0x00EE)).fault = some .stackUnderflow ∧
    (after { State.reset with pc := 0xFFF }).fault = some .outOfBounds ∧
    (after { start 0xD012 with i := 0xFFF }).fault = some .outOfBounds ∧ (after { start 0xD011 with i := 0xFFF }).fault = none := by
  decide
theorem witness_FaultedCoreStaysFaulted : { State.reset with fault := some .stackOverflow }.fault = some Fault.stackOverflow ∧
    Transaction.tick.isReset = false ∧ Transaction.tick ≠ .step ∧
    transact .tick (some State.reset) = .next (tick State.reset, .tone (toneEdge State.reset)) :=
  ⟨rfl, rfl, by decide, rfl⟩
theorem witness_StepReturnsTheFaultCode : (after State.reset).fault = none ∧
    (after { start 0x2727 with sp := 16 }).fault = some .stackOverflow ∧
    (after (start 0x00EE)).fault = some .stackUnderflow ∧ (after { State.reset with pc := 0xFFF }).fault = some .outOfBounds := by
  decide
theorem witness_StepKeepsTheInvariant : (start 0x2727).Inv ∧ step (start 0x2727) = .next (after (start 0x2727)) :=
  ⟨by decide, rfl⟩
theorem witness_EveryScheduleKeepsTheInvariant :
    afterAll [.reset defaultFont, .load [0x27, 0x27], .key 3 true, .tick, .fbRead, .step] none =
      some (after { State.reset with mem := [(0x200, 0x27), (0x201, 0x27)], keys := 8 }) := by decide
theorem witness_CanonicalMemoryIsUnique : Memory.wf defaultFont [(0x000, 0x00), (0xFFF, 0x01)] = true := by decide
theorem witness_EveryTransactionKeepsTheInvariant : (start 0x2727).Inv ∧
    transact (.key 15 true) (some (start 0x2727)) = .next (setKey (start 0x2727) 15 true, .nothing) :=
  ⟨by decide, rfl⟩
/-- A block that ends at 0xFFF, and a later state, its pc moved, that fetches a byte of it first or second. -/
theorem witness_StoredBytesAreFetched_block :
    let s := { withRegs (start 0xF155) [(0, 0x60), (1, 0x42)] with i := 0xFFE }
    let u (pc : Word) : State := { after s with pc := pc }
    s.i.toNat + (1 : Nibble).toNat ≤ 0xFFF ∧ exec (.ldMemVx 1) s = .next (after s) ∧ (1 : Nibble).toNat ≤ (1 : Nibble).toNat ∧
    (u 0xFFE).fault = none ∧ (u 0xFFE).memRead 0xFFE = (after s).memRead 0xFFE ∧ (u 0xFFE).pc.toNat = 0xFFE ∧
    (u 0xFFD).pc.toNat + 1 = 0xFFE :=
  ⟨by decide, rfl, by decide, by decide, rfl, by decide, by decide⟩
/-- Three digits that end at 0xFFF. -/
theorem witness_StoredBytesAreFetched_digits :
    let s := { withRegs (start 0xF533) [(5, 234)] with i := 0xFFD }
    s.i.toNat + 2 ≤ 0xFFF ∧ exec (.ldB 5) s = .next (after s) ∧ { after s with pc := 0xFFE }.pc.toNat + 1 = 0xFFF ∧
    { after s with pc := 0xFFE }.memRead 0xFFF = (after s).memRead 0xFFF ∧ { after s with pc := 0xFFE }.fault = none :=
  ⟨by decide, rfl, by decide, rfl, by decide⟩
theorem witness_RetPopsOrUnderflows :
    { State.reset with sp := 16 }.sp.val ≠ 0 ∧ { State.reset with sp := 1 }.sp.val ≠ 0 ∧ State.reset.sp.val = 0 := by decide
theorem witness_CallPushesOrOverflows : { State.reset with sp := 15 }.sp.val < 16 ∧ { State.reset with sp := 16 }.sp.val = 16 := by
  decide
theorem witness_RetReturnsAfterItsCall : State.reset.sp.val < 16 ∧
    exec (.call 0x727) (start 0x2727) = .next (after (start 0x2727)) ∧
    { after (start 0x2727) with pc := 0x900 }.sp = (after (start 0x2727)).sp ∧
    { after (start 0x2727) with pc := 0x900 }.stack = (after (start 0x2727)).stack :=
  ⟨by decide, rfl, rfl, rfl⟩
theorem witness_UnknownWordsAreNoOps : isUnknownWord 0x0000 = true ∧ isUnknownWord 0xFFFF = true := by decide
/-- Both sides of the skips' conditions, at key indices 15 and 16. -/
theorem witness_SkipsWhen : State.reset.reg 3 = 0 ∧ ¬State.reset.reg 3 = 1 ∧
    ((15 : Byte).toNat ≤ 15 ∧ (0x8000 : Word).getLsbD (15 : Byte).toNat = true) ∧
    ¬((16 : Byte).toNat ≤ 15 ∧ (0xFFFF : Word).getLsbD (16 : Byte).toNat = true) := by decide
/-- Results that are not VF, and VF itself. -/
theorem witness_WritesFlagged : (14 : Nibble) ≠ 15 ∧ (15 : Nibble) ∉ [(14 : Nibble)] := by decide
theorem witness_FlagWinsOverResultInVF :
    (Instr.shl 15 1 = .shl 15 1 ∧ 1 = ((withRegs State.reset [(15, 0x80)]).reg 15).toNat / 128) ∧
    (Instr.shr 15 1 = .shr 15 1 ∧ 1 = ((withRegs State.reset [(15, 0x81)]).reg 15).toNat % 2) ∧
    (1 = (if ((withRegs State.reset [(15, 0xFF), (1, 1)]).reg 15).toNat + ((withRegs State.reset [(15, 0xFF), (1, 1)]).reg 1).toNat > 255 then 1 else 0)) ∧
    (1 = (if (State.reset.reg 15).toNat ≥ (State.reset.reg 1).toNat then 1 else 0)) := by decide
theorem witness_BcdStoresThreeDigits : { State.reset with i := 0xFFD }.i.toNat + 2 ≤ 0xFFF ∧
    { State.reset with i := 0xFFE }.i.toNat + 2 > 0xFFF := by decide
theorem witness_BlockStoreAndLoad : { State.reset with i := 0xFF0 }.i.toNat + (15 : Nibble).toNat ≤ 0xFFF ∧
    { State.reset with i := 0xFF1 }.i.toNat + (15 : Nibble).toNat > 0xFFF ∧
    { State.reset with i := 0xFFF }.i.toNat + (0 : Nibble).toNat ≤ 0xFFF := by decide
/-- A span that just fits, one that does not, n = 0 beyond memory, a covered pixel and one that is not. -/
theorem witness_DrawXorsTheSprite :
    let s := { withBytes State.reset 0xFFF [0x01] with i := 0xFFF }
    s.i.toNat + (1 : Nibble).toNat - 1 ≤ 0xFFF ∧ s.i.toNat + (2 : Nibble).toNat - 1 > 0xFFF ∧ 1 ≤ (2 : Nibble).toNat ∧
    (0 : Nibble).toNat = 0 ∧ SpriteCovers s 0 1 1 7 0 ∧ ¬SpriteCovers s 0 1 0 7 0 ∧ pixelAt s.fb 7 0 = false :=
  ⟨by decide, by decide, by decide, rfl, ⟨0, 7, by decide, by decide, by decide, by decide, by decide⟩,
   fun ⟨_, _, h, _⟩ => absurd h (Nat.not_lt_zero _), by decide⟩
theorem witness_DrawingTwiceRestores : (0 : Nibble) ≠ 15 ∧ (1 : Nibble) ≠ 15 ∧
    { start 0xD015 with i := 0xFFB }.i.toNat + (5 : Nibble).toNat ≤ 0x1000 ∧
    exec (.drw 0 1 5) { start 0xD015 with i := 0xFFB } = .next (after { start 0xD015 with i := 0xFFB }) :=
  ⟨by decide, by decide, by decide, rfl⟩
theorem witness_WaitForKeyTakesTheLeastKey : State.reset.keys = 0 ∧ { State.reset with keys := 0x8000 }.keys ≠ 0 := by decide
/-- The two ends of MEM's zeros after RESET. -/
theorem witness_ResetFixesEverything : (80 ≤ (80 : Nat) ∧ (80 : Nat) ≤ 0xFFF) ∧ 80 ≤ (0xFFF : Nat) ∧ (0xFFF : Nat) ≤ 0xFFF := by decide
theorem witness_RandomByteIsMasked : (0 : Byte) = 0 ∧ (0xFF : Byte) = 0xFF := by decide
theorem witness_RegistersHaveOnlyTheirWriters : exec (.ldVxMem 3) (start 0xF365) = .next (after (start 0xF365)) ∧
    mayWriteReg (.ldVxMem 3) 4 = false ∧ mayWriteReg (.ldVxMem 3) 3 = true := ⟨rfl, by decide, by decide⟩
theorem witness_PartsHaveOnlyTheirWriters : exec .cls (start 0x00E0) = .next (after (start 0x00E0)) ∧
    mayWritePart .cls .memory = false ∧ mayWritePart .cls .pixels = true := ⟨rfl, by decide, by decide⟩
theorem witness_InputsAreSeenOnlyByTheirReaders : exec .cls (start 0x00E0) = .next (after (start 0x00E0)) ∧
    (∀ x, Instr.cls ≠ .skp x) ∧ (∀ x, Instr.cls ≠ .sknp x) ∧ (∀ x, Instr.cls ≠ .ldVxK x) ∧ (∀ x, Instr.cls ≠ .ldVxDt x) ∧
    (∀ x kk, Instr.cls ≠ .rnd x kk) ∧
    exec .cls { start 0x00E0 with keys := 5 } = .next (after { start 0x00E0 with keys := 5 }) :=
  ⟨rfl, nofun, nofun, nofun, nofun, nofun, rfl⟩
theorem witness_ToneEdgeOnExactlyOneTick : transact .step (some (start 0xF218)) =
    .next (after (start 0xF218), .status 0) ∧ toneEdge (tick { State.reset with st := 2 }) = true :=
  ⟨rfl, by decide⟩
theorem witness_KeySetsOneBitOrIsRefused : (15 : Nat) ≤ 15 ∧ 16 ≤ (16 : Nat) := by decide
theorem witness_LoadCopiesTheImage : (List.replicate 3584 (0xAB : Byte)).length ≤ 3584 ∧
    3584 < (List.replicate 3585 (0xAB : Byte)).length := by
  rw [List.length_replicate, List.length_replicate]; decide
theorem witness_OnlyTheNamedTransactionsAreRefused : Transaction.fbRead.isReset = false ∧
    transact (.key 16 true) (some State.reset) = .refused .keyIndexNotAdmitted := ⟨rfl, rfl⟩
/-- The last STEP of R174's slide. -/
theorem witness_UnloadedMemorySlidesToAFault : (1792 : Nat) ≤ 1792 := by decide

end Sys2Proof.Machine.Tests
end

/-! ### The state after RESET (R23, R170) -/

namespace Sys2Proof.Machine

@[simp] theorem State.reg_resetWith (f : Font) (d : Nat) (r : Nibble) : (State.resetWith f d).reg r = 0 := by
  simp [State.reg]

/-- With no cell listed, MEM reads as the RESET contents at every address. -/
theorem State.memRead_resetWith (f : Font) (d a : Nat) : (State.resetWith f d).memRead a = unlistedByte f a := rfl

/-- R19: FONT is preloaded at 0x000 to 0x04F. -/
theorem State.memRead_resetWith_font (f : Font) (d : Nat) (a : Fin 80) : (State.resetWith f d).memRead a = f[a] := by
  rw [State.memRead_resetWith, unlistedByte, dif_pos a.isLt]; rfl

/-- R23: MEM is zero past the font. -/
theorem State.memRead_resetWith_zero (f : Font) (d : Nat) {a : Nat} (h : 80 ≤ a) :
    (State.resetWith f d).memRead a = 0 := by
  rw [State.memRead_resetWith, unlistedByte, dif_neg (Nat.not_lt.mpr h)]

/-- R171: RESET is admitted from every state and before any, and keeps nothing but the random source's place. -/
theorem transact_reset (f : Font) (c : Option State) :
    transact (.reset f) c = .next (State.resetWith f (drawsOf c), .nothing) := by
  cases c <;> rfl

/-- Settles O13: RESET gives `State.resetWith`, each part of which is read off by its own lemma. -/
theorem resetFixesEverything : Obligations.ResetFixesEverything := by
  unfold Obligations.ResetFixesEverything
  constructor
  · intro font c
    refine ⟨State.resetWith font (drawsOf c), transact_reset font c, State.reg_resetWith font _, rfl, rfl, rfl,
      ?stack, rfl, rfl, rfl, pixelAt_blankFb, State.memRead_resetWith_font font _, ?zero, rfl⟩
    case stack => simp
    case zero => exact fun _ past_font _ => State.memRead_resetWith_zero font _ past_font
  · exact transact_reset _ none

end Sys2Proof.Machine

/-! ### The fetch (R32, R33) -/

namespace Sys2Proof.Machine

/-- R33: a STEP whose fetch runs past 0xFFF records the fault before anything is decoded. -/
theorem step_of_fetch_past (s : State) (healthy : s.fault = none) (past : 0xFFE < s.pc.toNat) :
    step s = .next { s with fault := some .outOfBounds } := by
  simp only [step, healthy, State.fetch_error s past, raiseFault]

/-- Settles O6: the fetch fits or runs past the end, and a word that fits is its two bytes' number (R32). -/
theorem fetchReadsTwoBytesOrFaults : Obligations.FetchReadsTwoBytesOrFaults := by
  unfold Obligations.FetchReadsTwoBytesOrFaults
  intro s
  constructor
  · intro fits
    rw [State.fetch_ok s (by omega), bigEndian_eq]
  · exact fun past healthy => step_of_fetch_past s healthy (by omega)

end Sys2Proof.Machine

/-! ### The call stack (R70, R72) -/

namespace Sys2Proof.Machine

/-- The state in which a RET that finds a return address (SP not 0) ends (R70). -/
def State.returned (s : State) : State :=
  { s with
    pc := s.stack[s.sp.val - 1]'(by have := s.sp.isLt; omega)
    sp := ⟨s.sp.val - 1, by have := s.sp.isLt; omega⟩ }

/-- The state in which a CALL that finds a free slot ends (R72). -/
def State.called (s : State) (nnn : Addr) (h : s.sp.val < 16) : State :=
  { s with
    pc := zextAddr nnn
    sp := ⟨s.sp.val + 1, by omega⟩
    stack := s.stack.set s.sp.val (s.pc + 2) h }

theorem exec_ret_of_nonempty (s : State) (h : s.sp.val ≠ 0) : exec .ret s = .next s.returned := by
  change execRet s = _
  rw [execRet, State.pop_ok s.advance h]; rfl

theorem exec_ret_of_empty (s : State) (h : s.sp.val = 0) :
    exec .ret s = .next { s with fault := some .stackUnderflow } := by
  change execRet s = _
  rw [execRet, State.pop_error s.advance h]; rfl

theorem exec_call_of_room (s : State) (nnn : Addr) (h : s.sp.val < 16) :
    exec (.call nnn) s = .next (s.called nnn h) := by
  change execCall nnn s = _
  rw [execCall, State.push_ok s.advance _ h]; rfl

theorem exec_call_of_full (s : State) (nnn : Addr) (h : ¬s.sp.val < 16) :
    exec (.call nnn) s = .next { s with fault := some .stackOverflow } := by
  change execCall nnn s = _
  rw [execCall, State.push_error s.advance _ h]; rfl

/-- R14: the slot a RET uncovers is not cleared. -/
theorem frame_returned (s : State) : Frame [] [.stackPointer] s s.returned := by
  refine ⟨fun _ _ => rfl, fun p hp => ?_⟩
  cases p with
  | stackPointer => simp at hp
  | pixels => exact fun _ _ => rfl
  | memory => exact fun _ => rfl
  | _ => rfl

theorem frame_called (s : State) (nnn : Addr) (h : s.sp.val < 16) :
    Frame [] [.stackPointer, .stackSlots] s (s.called nnn h) := by
  refine ⟨fun _ _ => rfl, fun p hp => ?_⟩
  cases p with
  | stackPointer | stackSlots => simp at hp
  | pixels => exact fun _ _ => rfl
  | memory => exact fun _ => rfl
  | _ => rfl

theorem State.called_stack (s : State) (nnn : Addr) (h : s.sp.val < 16) (j : Fin 16) :
    (s.called nnn h).stack[j] = if j.val = s.sp.val then s.pc + 2 else s.stack[j] := by
  simp only [State.called, Fin.getElem_fin, Vector.getElem_set, eq_comm]

@[simp] theorem zextAddr_toNat (nnn : Addr) : (zextAddr nnn).toNat = nnn.toNat :=
  BitVec.toNat_setWidth_of_le (by decide)

@[simp] theorem zextByte_toNat (b : Byte) : (zextByte b).toNat = b.toNat :=
  BitVec.toNat_setWidth_of_le (by decide)

/-- Settles O20: RET by its two cases, a return address on the stack or none. -/
theorem retPopsOrUnderflows : Obligations.RetPopsOrUnderflows := by
  unfold Obligations.RetPopsOrUnderflows
  intro s
  constructor
  · intro nonempty
    exact ⟨s.returned, exec_ret_of_nonempty s nonempty, rfl, Vector.getElem?_eq_getElem _, frame_returned s⟩
  · exact exec_ret_of_empty s

/-- Settles O21: CALL by its two cases, a free slot on the stack or none. -/
theorem callPushesOrOverflows : Obligations.CallPushesOrOverflows := by
  unfold Obligations.CallPushesOrOverflows
  intro s nnn
  constructor
  · intro room
    exact ⟨s.called nnn room, exec_call_of_room s nnn room, rfl, zextAddr_toNat nnn, s.called_stack nnn room,
      frame_called s nnn room⟩
  · exact fun full => exec_call_of_full s nnn (by omega)

end Sys2Proof.Machine

/-! ### Jumps and skips (R71, R73 to R77) -/

namespace Sys2Proof.Machine

/-- R73: the sum that JP V0 takes is modulo 2^16, not masked to 12 bits. -/
theorem jpV0_target_toNat (nnn : Addr) (b : Byte) :
    (zextAddr nnn + zextByte b).toNat = (nnn.toNat + b.toNat) % 65536 := by
  rw [BitVec.toNat_add, zextAddr_toNat, zextByte_toNat]

/-- A skip on the Bool `c`, for any proposition that `c` decides. -/
theorem skipsWhen_skipIf (s : State) {c : Bool} {p : Prop} (h : c = true ↔ p) :
    SkipsWhen p s (s.advance.skipIf c) := by
  refine ⟨fun taken => ?_, fun passed => ?_, frame_skipIf s c⟩
  · rw [State.skipIf_pc, if_pos (h.2 taken), State.advance_pc, BitVec.add_assoc]; rfl
  · rw [State.skipIf_pc, if_neg (mt h.1 passed), State.advance_pc]

/-- Settles O22: both jumps set pc after the fetch's advance, and only the target differs. -/
theorem jumpsGoExactlyToTheirTargets : Obligations.JumpsGoExactlyToTheirTargets := by
  unfold Obligations.JumpsGoExactlyToTheirTargets
  intro s nnn
  constructor
  · exact ⟨s.advance.setPc (zextAddr nnn), rfl, zextAddr_toNat nnn, frame_setPc s _⟩
  · exact ⟨s.advance.setPc (zextAddr nnn + zextByte (s.reg 0)), rfl, jpV0_target_toNat nnn _, frame_setPc s _⟩

/-- Settles O23: SE and SNE are skips on the test of V[x] against kk. -/
theorem skipsComparingAnImmediate : Obligations.SkipsComparingAnImmediate := by
  unfold Obligations.SkipsComparingAnImmediate
  intro s x kk
  constructor
  · exact ⟨s.advance.skipIf (s.reg x == kk), rfl, skipsWhen_skipIf s beq_iff_eq⟩
  · exact ⟨s.advance.skipIf (s.reg x != kk), rfl, skipsWhen_skipIf s bne_iff_ne⟩

/-- Settles O24: SE and SNE are skips on the test of V[x] against V[y]. -/
theorem skipsComparingRegisters : Obligations.SkipsComparingRegisters := by
  unfold Obligations.SkipsComparingRegisters
  intro s x y
  constructor
  · exact ⟨s.advance.skipIf (s.reg x == s.reg y), rfl, skipsWhen_skipIf s beq_iff_eq⟩
  · exact ⟨s.advance.skipIf (s.reg x != s.reg y), rfl, skipsWhen_skipIf s bne_iff_ne⟩

end Sys2Proof.Machine

/-! ### Loads, ADD of an immediate and logic: one register, no flag (R80 to R85) -/

namespace Sys2Proof.Machine

/-- The end of every STEP that writes one register and no flag. -/
theorem writesOnly_setReg (s : State) (x : Nibble) (b : Byte) : WritesOnly x b s (s.advance.setReg x b) :=
  ⟨State.advance_pc s, State.reg_setReg_same _ x b, frame_setReg s x b⟩

/-- Settles O27: both loads are one write of V[x]. -/
theorem loadsWriteOneRegister : Obligations.LoadsWriteOneRegister := by
  unfold Obligations.LoadsWriteOneRegister
  intro s x y kk
  constructor
  · exact ⟨s.advance.setReg x kk, rfl, writesOnly_setReg s x kk⟩
  · exact ⟨s.advance.setReg x (s.reg y), rfl, writesOnly_setReg s x (s.reg y)⟩

/-- Settles O28: one write of V[x], whose byte is a sum of bit vectors and so wraps. -/
theorem addImmediateWrapsWithoutFlag : Obligations.AddImmediateWrapsWithoutFlag := by
  unfold Obligations.AddImmediateWrapsWithoutFlag
  intro s x kk
  obtain ⟨hpc, hreg, hframe⟩ := writesOnly_setReg s x (s.reg x + kk)
  have wraps : ((s.advance.setReg x (s.reg x + kk)).reg x).toNat = ((s.reg x).toNat + kk.toNat) % 256 := by
    rw [hreg, BitVec.toNat_add]
  exact ⟨_, rfl, wraps, hpc, hframe⟩

/-- What R83 to R85 share: a write of V[x] whose bits are given by `f`. -/
theorem writesBits_setReg (s : State) (x : Nibble) (b : Byte) {f : Nat → Bool} (bits : ∀ k, b.getLsbD k = f k) :
    (s.advance.setReg x b).pc = s.pc + 2 ∧ Frame [x] [] s (s.advance.setReg x b) ∧
      ∀ k, ((s.advance.setReg x b).reg x).getLsbD k = f k := by
  obtain ⟨hpc, hreg, hframe⟩ := writesOnly_setReg s x b
  exact ⟨hpc, hframe, fun k => by rw [hreg, bits k]⟩

/-- Settles O29: each operation is one write of V[x], whose bits are the library's for `|||`, `&&&` and `^^^`. -/
theorem logicIsBitwiseWithoutFlag : Obligations.LogicIsBitwiseWithoutFlag := by
  unfold Obligations.LogicIsBitwiseWithoutFlag
  intro s x y
  refine ⟨?or, ?and, ?xor⟩
  case or => exact ⟨_, rfl, writesBits_setReg s x (s.reg x ||| s.reg y) fun _ => BitVec.getLsbD_or⟩
  case and => exact ⟨_, rfl, writesBits_setReg s x (s.reg x &&& s.reg y) fun _ => BitVec.getLsbD_and⟩
  case xor => exact ⟨_, rfl, writesBits_setReg s x (s.reg x ^^^ s.reg y) fun _ => BitVec.getLsbD_xor⟩

end Sys2Proof.Machine

/-! ### The flag producers: the result, then VF (R86 to R92) -/

namespace Sys2Proof.Machine

/-- The end of every STEP that writes a result and then a flag (R92), with both given as numbers. -/
theorem writesFlagged_setResultFlag (s : State) (x : Nibble) {r : Byte} {c : Bool} {result flag : Nat}
    (hresult : r.toNat = result) (hflag : (if c = true then 1 else 0) = flag) :
    WritesFlagged x result flag s (s.advance.setResultFlag x r c) := by
  refine ⟨State.advance_pc s, fun notVF => ?_, ?_, frame_setResultFlag s x r c⟩
  · rw [State.setResultFlag_result _ r c notVF, hresult]
  · rw [State.setResultFlag_vf, hflag]

theorem carryOf_toNat (a b : Byte) :
    (if carryOf a b = true then 1 else 0) = if a.toNat + b.toNat > 255 then 1 else 0 := by
  simp only [carryOf, decide_eq_true_eq]

theorem notBorrow_toNat (a b : Byte) :
    (if notBorrow a b = true then 1 else 0) = if a.toNat ≥ b.toNat then 1 else 0 := by
  simp only [notBorrow, decide_eq_true_eq]

/-- R91: the difference modulo 256, with 256 added so that no subtraction of naturals is cut off. -/
theorem byte_sub_toNat (a b : Byte) : (a - b).toNat = (a.toNat + 256 - b.toNat) % 256 := by
  rw [BitVec.toNat_sub]
  have := b.isLt
  congr 1
  omega

/-- R88. -/
theorem shiftedRight_toNat (a : Byte) : (a >>> 1).toNat = a.toNat / 2 := by
  rw [BitVec.toNat_ushiftRight, Nat.shiftRight_eq_div_pow, Nat.pow_one]

/-- R90. -/
theorem shiftedLeft_toNat (a : Byte) : (a <<< 1).toNat = a.toNat * 2 % 256 := by
  rw [BitVec.toNat_shiftLeft, Nat.shiftLeft_eq, Nat.pow_one]

/-- The bit SHL shifts out is one bit: no higher bit of a byte is left after the division. -/
theorem highBit_toNat_mod (a : Byte) : (if highBit a = true then 1 else 0) = a.toNat / 128 % 2 := by
  have atMostOne : a.toNat / 128 < 2 := Nat.div_lt_of_lt_mul a.isLt
  rw [highBit_toNat, Nat.mod_eq_of_lt atMostOne]

/-- Settles O30: the sum as result, the carry as flag. -/
theorem addSetsCarry : Obligations.AddSetsCarry := by
  unfold Obligations.AddSetsCarry
  intro s x y
  exact ⟨_, rfl, writesFlagged_setResultFlag s x (BitVec.toNat_add _ _) (carryOf_toNat _ _)⟩

/-- Settles O31: each difference as result, its not-borrow as flag. -/
theorem subtractionsSetNotBorrow : Obligations.SubtractionsSetNotBorrow := by
  unfold Obligations.SubtractionsSetNotBorrow
  intro s x y
  constructor
  · exact ⟨_, rfl, writesFlagged_setResultFlag s x (byte_sub_toNat (s.reg x) (s.reg y)) (notBorrow_toNat _ _)⟩
  · exact ⟨_, rfl, writesFlagged_setResultFlag s x (byte_sub_toNat (s.reg y) (s.reg x)) (notBorrow_toNat _ _)⟩

/-- Settles O32: each shift of V[x] as result, the bit shifted out as flag; the y nibble is in neither. -/
theorem shiftsSetTheBitShiftedOut : Obligations.ShiftsSetTheBitShiftedOut := by
  unfold Obligations.ShiftsSetTheBitShiftedOut
  intro s x y
  constructor
  · exact ⟨_, rfl, writesFlagged_setResultFlag s x (shiftedRight_toNat (s.reg x)) (lowBit_toNat _)⟩
  · exact ⟨_, rfl, writesFlagged_setResultFlag s x (shiftedLeft_toNat (s.reg x)) (highBit_toNat_mod _)⟩

end Sys2Proof.Machine

/-! ### The address register (R100 to R102) -/

namespace Sys2Proof.Machine

/-- The address of a glyph fits in I: no byte is large enough for five times it to wrap. -/
theorem glyphAddr_toNat (b : Byte) : (glyphAddr b).toNat = b.toNat * 5 := by
  have := b.isLt
  rw [glyphAddr, BitVec.toNat_ofNat, Nat.mod_eq_of_lt (by omega)]

/-- R101: the sum is modulo 2^16, not masked to 12 bits. -/
theorem add_zextByte_toNat (w : Word) (b : Byte) : (w + zextByte b).toNat = (w.toNat + b.toNat) % 65536 := by
  rw [BitVec.toNat_add, zextByte_toNat]

/-- What R100 to R102 share: a write of I, given as a number, after which pc has passed the word. -/
theorem writesIndex_setI (s : State) (w : Word) {value : Nat} (hvalue : w.toNat = value) :
    (s.advance.setI w).i.toNat = value ∧ (s.advance.setI w).pc = s.pc + 2 ∧
      Frame [] [.index] s (s.advance.setI w) :=
  ⟨hvalue, State.advance_pc s, frame_setI s w⟩

/-- Settles O34: each instruction is one write of I. -/
theorem indexRegisterWrites : Obligations.IndexRegisterWrites := by
  unfold Obligations.IndexRegisterWrites
  intro s x nnn
  refine ⟨?ldI, ?addI, ?ldF⟩
  case ldI => exact ⟨_, rfl, writesIndex_setI s _ (zextAddr_toNat nnn)⟩
  case addI => exact ⟨_, rfl, writesIndex_setI s _ (add_zextByte_toNat s.i (s.reg x))⟩
  case ldF => exact ⟨_, rfl, writesIndex_setI s _ (glyphAddr_toNat (s.reg x))⟩

end Sys2Proof.Machine

/-! ### Stores of a span (R35, R103, R104) -/

namespace Sys2Proof.Machine

/-- R35: the end of a STEP that stores a span, all of whose addresses exist. -/
theorem conclude_writeSpan_of_fits (s : State) {a : Nat} {bs : List Byte} (fits : a + bs.length ≤ 0x1000) :
    conclude s (s.advance.writeSpan a bs) = .next (s.advance.storeBytes a bs) := by
  rw [State.writeSpan_ok s.advance (.inr fits), conclude_ok]

/-- R35, R142: the end of a STEP that would store a span past 0xFFF; the fault also takes back the advance of pc. -/
theorem conclude_writeSpan_of_overruns (s : State) {a : Nat} {bs : List Byte} (nonempty : bs.length ≠ 0)
    (overruns : 0x1000 < a + bs.length) :
    conclude s (s.advance.writeSpan a bs) = .next { s with fault := some .outOfBounds } := by
  rw [State.writeSpan_error s.advance (by omega), conclude_error]

theorem memoryOutside_storeBytes (s : State) (a : Nat) (bs : List Byte) :
    MemoryOutside a bs.length s (s.advance.storeBytes a bs) :=
  fun b outside => State.memRead_storeBytes_outside s.advance a bs b outside

/-- R103: the digits of a byte are those of its number; each fits in a byte. -/
theorem bcdDigits_toNat (b : Byte) :
    (bcdDigits b).map BitVec.toNat = [b.toNat / 100, b.toNat / 10 % 10, b.toNat % 10] := by
  have := b.isLt
  have hundreds : b.toNat / 100 < 2 ^ 8 := by omega
  have tens : b.toNat / 10 % 10 < 2 ^ 8 := by omega
  have ones : b.toNat % 10 < 2 ^ 8 := by omega
  simp only [bcdDigits, List.map_cons, List.map_nil, BitVec.toNat_ofNat, Nat.mod_eq_of_lt hundreds,
    Nat.mod_eq_of_lt tens, Nat.mod_eq_of_lt ones]

/-- R103: each of the three stored bytes is read back as its digit. -/
theorem memRead_storeBytes_bcdDigits (s : State) {a : Nat} (b : Byte) (fits : a + 2 ≤ 0xFFF) (k : Nat) (hk : k < 3) :
    ((s.storeBytes a (bcdDigits b)).memRead (a + k)).toNat =
      [b.toNat / 100, b.toNat / 10 % 10, b.toNat % 10][k] := by
  have inside : k < (bcdDigits b).length := hk
  rw [State.memRead_storeBytes_inside s a (bcdDigits b) k inside (Nat.succ_le_succ fits)]
  simp only [← bcdDigits_toNat, List.getElem_map]

theorem exec_ldB_of_fits (s : State) (x : Nibble) (fits : s.i.toNat + 2 ≤ 0xFFF) :
    exec (.ldB x) s = .next (s.advance.storeBytes s.i.toNat (bcdDigits (s.reg x))) :=
  conclude_writeSpan_of_fits s (Nat.succ_le_succ fits)

theorem exec_ldB_of_overruns (s : State) (x : Nibble) (overruns : s.i.toNat + 2 > 0xFFF) :
    exec (.ldB x) s = .next { s with fault := some .outOfBounds } :=
  conclude_writeSpan_of_overruns s (by decide : 3 ≠ 0) (Nat.succ_lt_succ overruns)

/-- Settles O35: LD B by its two cases, the span fits or overruns. -/
theorem bcdStoresThreeDigits : Obligations.BcdStoresThreeDigits := by
  unfold Obligations.BcdStoresThreeDigits
  intro s x
  constructor
  · intro fits
    have digit := memRead_storeBytes_bcdDigits s.advance (s.reg x) fits
    exact ⟨_, exec_ldB_of_fits s x fits, State.advance_pc s, digit 0 (by decide), digit 1 (by decide),
      digit 2 (by decide), memoryOutside_storeBytes s s.i.toNat (bcdDigits (s.reg x)), frame_storeBytes s _ _⟩
  · exact exec_ldB_of_overruns s x

/-- R104: every register up to `V[x]` is read back from its place in the span. -/
theorem memRead_storeBytes_firstRegs (s t : State) (x : Nibble) {a : Nat} (fits : a + x.toNat ≤ 0xFFF) {r : Nibble}
    (upToX : r.toNat ≤ x.toNat) : (t.storeBytes a (s.firstRegs x)).memRead (a + r.toNat) = s.reg r := by
  have length := s.firstRegs_length x
  rw [State.memRead_storeBytes_inside t a _ r.toNat (by omega) (by omega), State.firstRegs_getElem,
    BitVec.ofNat_toNat, BitVec.setWidth_eq]

theorem exec_ldMemVx_of_fits (s : State) (x : Nibble) (fits : s.i.toNat + x.toNat ≤ 0xFFF) :
    exec (.ldMemVx x) s = .next (s.advance.storeBytes s.i.toNat (s.firstRegs x)) :=
  conclude_writeSpan_of_fits s (by rw [State.firstRegs_length]; omega)

theorem exec_ldMemVx_of_overruns (s : State) (x : Nibble) (overruns : s.i.toNat + x.toNat > 0xFFF) :
    exec (.ldMemVx x) s = .next { s with fault := some .outOfBounds } := by
  have length := s.firstRegs_length x
  exact conclude_writeSpan_of_overruns s (by omega) (by omega)

/-- Settles O36: LD [I] by its two cases, the span fits or overruns. -/
theorem blockStoreWritesV0ToVx : Obligations.BlockStoreWritesV0ToVx := by
  unfold Obligations.BlockStoreWritesV0ToVx
  intro s x
  constructor
  · intro fits
    have outside := memoryOutside_storeBytes s s.i.toNat (s.firstRegs x)
    rw [State.firstRegs_length] at outside
    exact ⟨_, exec_ldMemVx_of_fits s x fits, State.advance_pc s,
      fun r upToX => memRead_storeBytes_firstRegs s s.advance x fits upToX, outside, frame_storeBytes s _ _⟩
  · exact exec_ldMemVx_of_overruns s x

end Sys2Proof.Machine

/-! ### The load of a span into registers (R35, R105) -/

namespace Sys2Proof.Machine

/-- The state in which LD Vx, [I] ends when its span fits (R105). -/
def State.blockLoaded (s : State) (x : Nibble) : State :=
  s.advance.loadRegs 0 (s.spanBytes s.i.toNat (x.toNat + 1))

theorem exec_ldVxMem_of_fits (s : State) (x : Nibble) (fits : s.i.toNat + x.toNat ≤ 0xFFF) :
    exec (.ldVxMem x) s = .next (s.blockLoaded x) := by
  change execLdVxMem x s = _
  rw [execLdVxMem, State.readSpan_ok s (by omega)]; rfl

theorem exec_ldVxMem_of_overruns (s : State) (x : Nibble) (overruns : s.i.toNat + x.toNat > 0xFFF) :
    exec (.ldVxMem x) s = .next { s with fault := some .outOfBounds } := by
  change execLdVxMem x s = _
  rw [execLdVxMem, State.readSpan_error s (by omega)]; rfl

/-- R105: the registers up to `V[x]` come from memory, the others are kept. -/
theorem State.reg_blockLoaded (s : State) (x r : Nibble) :
    (s.blockLoaded x).reg r = if r.toNat ≤ x.toNat then s.memRead (s.i.toNat + r.toNat) else s.reg r := by
  have := x.isLt
  rw [State.blockLoaded, State.reg_loadRegs _ _ _ (by rw [State.spanBytes_length]; omega)]
  simp only [State.spanBytes_length, State.spanBytes_getElem, State.reg_advance, dite_eq_ite, Nat.zero_le, true_and,
    Nat.zero_add, Nat.lt_succ_iff, Nat.sub_zero]

theorem samePart_blockLoaded (s : State) (x : Nibble) (p : Part) : samePart s (s.blockLoaded x) p := by
  cases p <;> simp [samePart, State.blockLoaded]

/-- Settles O37: LD Vx, [I] by its two cases, the span fits or overruns. -/
theorem blockLoadReadsV0ToVx : Obligations.BlockLoadReadsV0ToVx := by
  unfold Obligations.BlockLoadReadsV0ToVx
  intro s x
  constructor
  · intro fits
    exact ⟨s.blockLoaded x, exec_ldVxMem_of_fits s x fits, State.loadRegs_pc _ _ _, s.reg_blockLoaded x,
      samePart_blockLoaded s x⟩
  · exact exec_ldVxMem_of_overruns s x

end Sys2Proof.Machine

/-! ### The display: CLS and DRW (R110 to R112) -/

namespace Sys2Proof.Machine

/-- The state in which CLS ends (R110). -/
def State.blanked (s : State) : State := { s.advance with fb := blankFb }

theorem frame_blanked (s : State) : Frame [] [.pixels] s s.blanked := by
  refine ⟨fun _ _ => rfl, fun p hp => ?_⟩
  cases p with
  | pixels => simp at hp
  | memory => exact fun _ => rfl
  | _ => rfl

/-- Settles O38: CLS is the fetch's advance and a blank framebuffer. -/
theorem clsClearsEveryPixel : Obligations.ClsClearsEveryPixel := by
  unfold Obligations.ClsClearsEveryPixel
  intro s
  exact ⟨s.blanked, rfl, pixelAt_blankFb, State.advance_pc s, frame_blanked s⟩

/-- What DRW's blit leaves when its sprite, the `n` bytes from I, fits (R111). -/
def State.spriteBlit (s : State) (x y n : Nibble) : Blit :=
  blitSprite (s.reg x) (s.reg y) (s.spanBytes s.i.toNat n.toNat) s.fb

theorem exec_drw_of_fits (s : State) (x y n : Nibble) (fits : n.toNat = 0 ∨ s.i.toNat + n.toNat ≤ 0x1000) :
    exec (.drw x y n) s = .next (s.advance.setBlit (s.spriteBlit x y n)) := by
  change execDrw x y n s = _
  rw [execDrw, State.readSpan_ok s fits]; rfl

theorem exec_drw_of_overruns (s : State) (x y n : Nibble)
    (overruns : ¬(n.toNat = 0 ∨ s.i.toNat + n.toNat ≤ 0x1000)) :
    exec (.drw x y n) s = .next { s with fault := some .outOfBounds } := by
  change execDrw x y n s = _
  rw [execDrw, State.readSpan_error s overruns]; rfl

theorem wrapX_eq_iff (x0 : Byte) (col : Nat) (px : Fin 64) : px = wrapX x0 col ↔ (x0.toNat + col) % 64 = px.val := by
  rw [Fin.ext_iff, eq_comm]; rfl

theorem wrapY_eq_iff (y0 : Byte) (row : Nat) (py : Fin 32) : py = wrapY y0 row ↔ (y0.toNat + row) % 32 = py.val := by
  rw [Fin.ext_iff, eq_comm]; rfl

/-- A covered pixel is one that the blit engine, given the bytes from I, hits. -/
theorem spriteHits_spanBytes_iff (s : State) (x y n : Nibble) (px : Fin 64) (py : Fin 32) :
    spriteHits (s.reg x) (s.reg y) 0 (s.spanBytes s.i.toNat n.toNat) px py = true ↔ SpriteCovers s x y n px py := by
  simp only [spriteHits_iff, SpriteCovers, State.spanBytes_length, State.spanBytes_getElem, spriteBit, wrapX_eq_iff,
    wrapY_eq_iff, Nat.zero_add, exists_prop]

/-- What the blit engine does, from no collision, with the at most 15 bytes of a DRW. -/
theorem spriteBlit_spec (s : State) (x y n : Nibble) :
    (∀ px py, pixelAt (s.spriteBlit x y n).fb px py =
      (pixelAt s.fb px py ^^ spriteHits (s.reg x) (s.reg y) 0 (s.spanBytes s.i.toNat n.toNat) px py)) ∧
    (s.spriteBlit x y n).collision = spriteMeets (s.reg x) (s.reg y) 0 (s.spanBytes s.i.toNat n.toNat) s.fb := by
  have rows : (s.spanBytes s.i.toNat n.toNat).length ≤ 15 := by
    rw [State.spanBytes_length]; exact Nat.le_of_lt_succ n.isLt
  exact blitRows_spec (s.reg x) (s.reg y) _ 0 { fb := s.fb, collision := false } rows

/-- R111: a covered pixel is toggled. -/
theorem pixelAt_spriteBlit_of_covers {s : State} {x y n : Nibble} {px : Fin 64} {py : Fin 32}
    (covers : SpriteCovers s x y n px py) : pixelAt (s.spriteBlit x y n).fb px py = !pixelAt s.fb px py := by
  rw [(spriteBlit_spec s x y n).1, (spriteHits_spanBytes_iff s x y n px py).2 covers, Bool.xor_true]

/-- R111: a pixel on which no 1 bit lands is kept. -/
theorem pixelAt_spriteBlit_of_not_covers {s : State} {x y n : Nibble} {px : Fin 64} {py : Fin 32}
    (misses : ¬SpriteCovers s x y n px py) : pixelAt (s.spriteBlit x y n).fb px py = pixelAt s.fb px py := by
  rw [← spriteHits_spanBytes_iff, Bool.not_eq_true] at misses
  rw [(spriteBlit_spec s x y n).1, misses, Bool.xor_false]

/-- R111: the blit collides exactly if the sprite covers a pixel that was set. -/
theorem spriteBlit_collision_iff (s : State) (x y n : Nibble) :
    (s.spriteBlit x y n).collision = true ↔ ∃ px py, SpriteCovers s x y n px py ∧ pixelAt s.fb px py = true := by
  rw [(spriteBlit_spec s x y n).2, spriteMeets_iff]
  simp only [spriteHits_spanBytes_iff]

/-- R111: VF is written after every pixel, and is the collision. -/
theorem State.setBlit_vf (s : State) (w : Blit) : (s.setBlit w).reg 15 = if w.collision = true then 1 else 0 := by
  rw [State.reg_setBlit, vf_eq, if_pos rfl, flagByte]

/-- Settles O39: DRW by its two cases, the sprite fits (n = 0 among them) or overruns. -/
theorem drawXorsTheSprite : Obligations.DrawXorsTheSprite := by
  unfold Obligations.DrawXorsTheSprite
  intro s x y n
  constructor
  · intro fits
    have collides := spriteBlit_collision_iff s x y n
    refine ⟨_, exec_drw_of_fits s x y n (by omega), State.advance_pc s, fun _ _ => pixelAt_spriteBlit_of_covers,
      fun _ _ => pixelAt_spriteBlit_of_not_covers, fun hit => ?set, fun noHit => ?cleared, frame_setBlit s _⟩
    case set => rw [State.setBlit_vf, if_pos (collides.2 hit)]
    case cleared => rw [State.setBlit_vf, if_neg (mt collides.1 noHit)]
  · exact fun nonempty overruns => exec_drw_of_overruns s x y n (by omega)

end Sys2Proof.Machine

/-! ### The keyboard (R120 to R123) -/

namespace Sys2Proof.Machine

/-- R123: a key is pressed exactly if its index is that of a bit of KEYS and the bit is 1. -/
theorem State.pressed_iff (s : State) (k : Byte) :
    s.pressed k = true ↔ k.toNat ≤ 15 ∧ s.keys.getLsbD k.toNat = true := by
  rw [State.pressed, Bool.and_eq_true, decide_eq_true_eq]

theorem State.not_pressed_iff (s : State) (k : Byte) :
    (!s.pressed k) = true ↔ ¬(k.toNat ≤ 15 ∧ s.keys.getLsbD k.toNat = true) := by
  rw [Bool.not_eq_true', ← Bool.not_eq_true, State.pressed_iff]

/-- Settles O41: SKP and SKNP are skips on the test of key V[x] and on its negation. -/
theorem keySkipsTestKeyVx : Obligations.KeySkipsTestKeyVx := by
  unfold Obligations.KeySkipsTestKeyVx
  intro s x
  constructor
  · exact ⟨s.advance.skipIf (s.pressed (s.reg x)), rfl, skipsWhen_skipIf s (s.pressed_iff (s.reg x))⟩
  · exact ⟨s.advance.skipIf (!s.pressed (s.reg x)), rfl, skipsWhen_skipIf s (s.not_pressed_iff (s.reg x))⟩

/-- R122: the rewind undoes the fetch's advance, also where the advance wraps modulo 2^16. -/
theorem State.rewind_advance (s : State) : s.advance.rewind = s := by
  rw [State.rewind, State.advance_pc, BitVec.add_sub_cancel]; rfl

theorem exec_ldVxK_of_no_key (s : State) (x : Nibble) (noKey : s.keys = 0) : exec (.ldVxK x) s = .next s := by
  change execLdVxK x s = _
  rw [execLdVxK, s.leastKey_none.2 noKey]
  exact congrArg Host.Outcome.next s.rewind_advance

theorem exec_ldVxK_of_leastKey (s : State) (x : Nibble) {k : Nat} (least : s.leastKey = some k) :
    exec (.ldVxK x) s = .next (s.advance.setReg x (BitVec.ofNat 8 k)) := by
  change execLdVxK x s = _
  rw [execLdVxK, least]

/-- Settles O42: LD Vx, K by its two cases, no key is pressed or there is a least pressed key. -/
theorem waitForKeyTakesTheLeastKey : Obligations.WaitForKeyTakesTheLeastKey := by
  unfold Obligations.WaitForKeyTakesTheLeastKey
  intro s x
  constructor
  · exact exec_ldVxK_of_no_key s x
  · intro someKey
    obtain ⟨k, least⟩ := Option.ne_none_iff_exists'.1 (mt s.leastKey_none.1 someKey)
    obtain ⟨admitted, pressed, lowerReleased⟩ := s.leastKey_some least
    exact ⟨_, k, exec_ldVxK_of_leastKey s x least, admitted, pressed, lowerReleased, writesOnly_setReg s x _⟩

end Sys2Proof.Machine

/-! ### The timers (R130 to R132) -/

namespace Sys2Proof.Machine

/-- The state in which a STEP ends that leaves `dt` and `st` in the timers: LD DT, Vx and LD ST, Vx each give one of
them anew and keep the other (R131, R132). -/
def State.timersSet (s : State) (dt st : Byte) : State := { s.advance with dt := dt, st := st }

/-- A timer that is given the value it held may stand in the frame. -/
theorem frame_timersSet (s : State) {dt st : Byte} {parts : List Part} (delay : .delayTimer ∉ parts → dt = s.dt)
    (sound : .soundTimer ∉ parts → st = s.st) : Frame [] parts s (s.timersSet dt st) := by
  refine ⟨fun _ _ => rfl, fun p hp => ?_⟩
  cases p with
  | delayTimer => exact delay hp
  | soundTimer => exact sound hp
  | pixels => exact fun _ _ => rfl
  | memory => exact fun _ => rfl
  | _ => rfl

theorem exec_ldDtVx (s : State) (x : Nibble) : exec (.ldDtVx x) s = .next (s.timersSet (s.reg x) s.st) := rfl

theorem exec_ldStVx (s : State) (x : Nibble) : exec (.ldStVx x) s = .next (s.timersSet s.dt (s.reg x)) := rfl

/-- Settles O43: LD Vx, DT is one write of Vx, and the two others are one write of a timer. -/
theorem timerTransfers : Obligations.TimerTransfers := by
  unfold Obligations.TimerTransfers
  intro s x
  refine ⟨?readDelay, ?setDelay, ?setSound⟩
  case readDelay => exact ⟨_, rfl, writesOnly_setReg s x s.dt⟩
  case setDelay =>
    have frame : Frame [] [.delayTimer] s (s.timersSet (s.reg x) s.st) := frame_timersSet s (by simp) fun _ => rfl
    exact ⟨_, exec_ldDtVx s x, rfl, State.advance_pc s, frame⟩
  case setSound =>
    have frame : Frame [] [.soundTimer] s (s.timersSet s.dt (s.reg x)) := frame_timersSet s (fun _ => rfl) (by simp)
    exact ⟨_, exec_ldStVx s x, rfl, State.advance_pc s, frame⟩

end Sys2Proof.Machine

/-! ### The execution-time faults of a STEP (R140 to R142) -/

namespace Sys2Proof.Machine

/-- R141 as a function: the fault the execute phase of an instruction raises, if any. `exec_faultOutcome` ties it to
`exec`. -/
def execFault (i : Instr) (s : State) : Option Fault :=
  match i with
  | .call _ => if s.sp.val = 16 then some .stackOverflow else none
  | .ret => if s.sp.val = 0 then some .stackUnderflow else none
  | .drw _ _ n => if 1 ≤ n.toNat ∧ s.i.toNat + n.toNat - 1 > 0xFFF then some .outOfBounds else none
  | .ldB _ => if s.i.toNat + 2 > 0xFFF then some .outOfBounds else none
  | .ldMemVx x | .ldVxMem x => if s.i.toNat + x.toNat > 0xFFF then some .outOfBounds else none
  | _ => none

/-- What a STEP from `s` answers, given the fault it raises: with none, some next state with FAULT as it was; with a
fault, the state before with FAULT set (R142). -/
def FaultOutcome (s : State) (r : Result) : Option Fault → Prop
  | none => ∃ t, r = .next t ∧ t.fault = s.fault
  | some k => r = .next { s with fault := some k }

/-- Two cases of one instruction, said as one outcome. -/
theorem faultOutcome_ite {s : State} {r : Result} {p : Prop} [Decidable p] {k : Fault}
    (raises : p → r = .next { s with fault := some k }) (passes : ¬p → ∃ t, r = .next t ∧ t.fault = s.fault) :
    FaultOutcome s r (if p then some k else none) := by
  by_cases cause : p
  · rw [if_pos cause]; exact raises cause
  · rw [if_neg cause]; exact passes cause

/-- LD Vx, K writes a register or waits; it raises nothing (R122). -/
theorem exec_ldVxK_fault (s : State) (x : Nibble) : ∃ t, exec (.ldVxK x) s = .next t ∧ t.fault = s.fault := by
  cases least : s.leastKey with
  | none => exact ⟨s, exec_ldVxK_of_no_key s x (s.leastKey_none.1 least), rfl⟩
  | some k => exact ⟨_, exec_ldVxK_of_leastKey s x least, rfl⟩

/-- R140, R142: an instruction raises exactly the fault `execFault` says, and a fault leaves all but FAULT. -/
theorem exec_faultOutcome (i : Instr) (s : State) : FaultOutcome s (exec i s) (execFault i s) := by
  cases i with
  | call nnn =>
    refine faultOutcome_ite (fun full => exec_call_of_full s nnn (by omega)) fun room => ?_
    have free : s.sp.val < 16 := by have := s.sp.isLt; omega
    exact ⟨_, exec_call_of_room s nnn free, rfl⟩
  | ret => exact faultOutcome_ite (exec_ret_of_empty s) fun nonempty => ⟨_, exec_ret_of_nonempty s nonempty, rfl⟩
  | drw x y n =>
    exact faultOutcome_ite (fun overruns => exec_drw_of_overruns s x y n (by omega))
      fun fits => ⟨_, exec_drw_of_fits s x y n (by omega), rfl⟩
  | ldB x =>
    exact faultOutcome_ite (exec_ldB_of_overruns s x) fun fits => ⟨_, exec_ldB_of_fits s x (by omega), rfl⟩
  | ldMemVx x =>
    exact faultOutcome_ite (exec_ldMemVx_of_overruns s x) fun fits => ⟨_, exec_ldMemVx_of_fits s x (by omega), rfl⟩
  | ldVxMem x =>
    exact faultOutcome_ite (exec_ldVxMem_of_overruns s x)
      fun fits => ⟨_, exec_ldVxMem_of_fits s x (by omega), State.loadRegs_fault _ _ _⟩
  | ldVxK x => exact exec_ldVxK_fault s x
  | seImm | sneImm | seReg | sneReg | skp | sknp => exact ⟨_, rfl, State.skipIf_fault _ _⟩
  | _ => exact ⟨_, rfl, rfl⟩

/-- R55: a healthy STEP whose word is there to fetch runs the instruction at pc. -/
theorem step_of_fetch_fits (s : State) (healthy : s.fault = none) (fits : s.pc.toNat ≤ 0xFFE) :
    step s = exec s.nextInstr s := by
  simp only [step, healthy, State.fetch_ok s fits, bigEndian_eq, State.nextInstr]

/-- R143. -/
theorem step_of_faulted (s : State) {k : Fault} (faulted : s.fault = some k) : step s = .next s := by
  simp only [step, faulted]

/-- The fault a STEP of a healthy CORE raises, if any: at the fetch (R33), or in the execute phase. -/
def stepFault (s : State) : Option Fault :=
  if s.pc.toNat + 1 > 0xFFF then some .outOfBounds else execFault s.nextInstr s

theorem stepFault_of_past (s : State) (past : s.pc.toNat + 1 > 0xFFF) : stepFault s = some .outOfBounds := if_pos past

theorem stepFault_of_fits (s : State) (fits : ¬s.pc.toNat + 1 > 0xFFF) : stepFault s = execFault s.nextInstr s :=
  if_neg fits

theorem step_faultOutcome (s : State) (healthy : s.fault = none) : FaultOutcome s (step s) (stepFault s) := by
  by_cases past : s.pc.toNat + 1 > 0xFFF
  · rw [stepFault_of_past s past]
    exact step_of_fetch_past s healthy (by omega)
  · rw [stepFault_of_fits s past, step_of_fetch_fits s healthy (by omega)]
    exact exec_faultOutcome s.nextInstr s

/-- FAULT after a STEP of a healthy CORE, and what a fault leaves (R142). -/
theorem step_healthy (s : State) (healthy : s.fault = none) :
    ∃ t, step s = .next t ∧ t.fault = stepFault s ∧ ∀ k, stepFault s = some k → t = { s with fault := some k } := by
  have outcome := step_faultOutcome s healthy
  cases raised : stepFault s with
  | none =>
    rw [raised] at outcome
    obtain ⟨t, answer, kept⟩ := outcome
    exact ⟨t, answer, kept.trans healthy, fun _ h => by cases h⟩
  | some k =>
    rw [raised] at outcome
    exact ⟨_, outcome, rfl, fun _ h => by cases h; rfl⟩

/-- Settles O8: FAULT is then the fault raised, and a raised fault leaves the rest. -/
theorem faultEntryIsPrecise : Obligations.FaultEntryIsPrecise := by
  unfold Obligations.FaultEntryIsPrecise
  intro s t k healthy answer faulted
  obtain ⟨u, answer', fault_eq, precise⟩ := step_healthy s healthy
  obtain rfl : u = t := Host.Outcome.next.inj (answer'.symm.trans answer)
  exact precise k (fault_eq.symm.trans faulted)

/-! ### Each fault's cause (R141) -/

theorem execFault_eq_stackOverflow_iff (i : Instr) (s : State) :
    execFault i s = some .stackOverflow ↔ (∃ nnn, i = .call nnn) ∧ s.sp.val = 16 := by
  cases i <;> simp [execFault]

theorem execFault_eq_stackUnderflow_iff (i : Instr) (s : State) :
    execFault i s = some .stackUnderflow ↔ i = .ret ∧ s.sp.val = 0 := by
  cases i <;> simp [execFault]

theorem execFault_eq_outOfBounds_iff (i : Instr) (s : State) :
    execFault i s = some .outOfBounds ↔ SpanOverruns i s := by
  cases i with
  | drw x y n => simp [execFault, SpanOverruns]; omega
  | ldB x => simp [execFault, SpanOverruns]; omega
  | _ => simp [execFault, SpanOverruns]

/-- The fetch raises OUT_OF_BOUNDS and no other fault, so any other is the instruction's. -/
theorem stepFault_eq_some_iff (s : State) {k : Fault} (other : k ≠ .outOfBounds) :
    stepFault s = some k ↔ s.pc.toNat + 1 ≤ 0xFFF ∧ execFault s.nextInstr s = some k := by
  by_cases past : s.pc.toNat + 1 > 0xFFF
  · simp [stepFault_of_past s past, other.symm, Nat.not_le.2 past]
  · simp [stepFault_of_fits s past, Nat.not_lt.1 past]

theorem stepFault_eq_outOfBounds_iff (s : State) :
    stepFault s = some .outOfBounds ↔
      s.pc.toNat + 1 > 0xFFF ∨ (s.pc.toNat + 1 ≤ 0xFFF ∧ SpanOverruns s.nextInstr s) := by
  by_cases past : s.pc.toNat + 1 > 0xFFF
  · simp only [stepFault_of_past s past, past, true_or]
  · simp only [stepFault_of_fits s past, past, Nat.not_lt.1 past, execFault_eq_outOfBounds_iff, false_or, true_and]

/-- Settles O9: FAULT after the STEP is `stepFault`, whose values have R141's causes. -/
theorem faultsHaveExactlyTheirCauses : Obligations.FaultsHaveExactlyTheirCauses := by
  unfold Obligations.FaultsHaveExactlyTheirCauses
  refine ⟨fun s healthy => ?causes, rfl, rfl, rfl, rfl⟩
  obtain ⟨t, answer, fault_eq, -⟩ := step_healthy s healthy
  refine ⟨t, answer, ?overflow, ?underflow, ?bounds⟩ <;> rw [fault_eq]
  case overflow => rw [stepFault_eq_some_iff s (by decide), execFault_eq_stackOverflow_iff]
  case underflow => rw [stepFault_eq_some_iff s (by decide), execFault_eq_stackUnderflow_iff]
  case bounds => exact stepFault_eq_outOfBounds_iff s

end Sys2Proof.Machine

/-! ### The STEP transaction and the faulted CORE (R143, R154) -/

namespace Sys2Proof.Machine

/-- STEP answers a next state, from a faulted CORE the same one. -/
theorem step_answers (s : State) : ∃ t, step s = .next t ∧ ∀ k, s.fault = some k → t.fault = some k := by
  cases recorded : s.fault with
  | some k => exact ⟨s, step_of_faulted s recorded, fun _ h => recorded.trans h⟩
  | none =>
    obtain ⟨t, answer, -⟩ := step_healthy s recorded
    exact ⟨t, answer, fun _ h => by cases h⟩

/-- R154. -/
theorem transact_step {s t : State} (answer : step s = .next t) :
    transact .step (some s) = .next (t, .status (faultCode t.fault)) := by
  change stepReply s = _
  rw [stepReply, answer]

/-- Settles O11: the reply is `faultCode` of FAULT in the state that `step` answers. -/
theorem stepReturnsTheFaultCode : Obligations.StepReturnsTheFaultCode := by
  unfold Obligations.StepReturnsTheFaultCode
  intro s
  obtain ⟨t, answer, keeps⟩ := step_answers s
  have code {f : Option Fault} (h : t.fault = f) : faultCode t.fault = faultCode f := congrArg faultCode h
  exact ⟨t, _, transact_step answer, answer, code, code, code, code, keeps⟩

/-- R143: LOAD, TICK, KEY and FB_READ neither read FAULT nor write it. -/
theorem transact_eq_withFault (s : State) {tr : Transaction} (notReset : tr.isReset = false) (notStep : tr ≠ .step) :
    transact tr (some s) = withFault s.fault (transact tr (some { s with fault := none })) := by
  cases tr with
  | reset => cases notReset
  | step => exact absurd rfl notStep
  | load bytes =>
    by_cases tooLong : bytes.length > Config.memSize - Config.progBase
    · simp only [transact, loadReply, loadProgram, if_pos tooLong, withFault]
    · simp only [transact, loadReply, loadProgram, if_neg tooLong, withFault]; rfl
  | key index pressed =>
    by_cases admitted : index < 16
    · simp only [transact, keyReply, dif_pos admitted, withFault]; rfl
    · simp only [transact, keyReply, dif_neg admitted, withFault]
  | tick | fbRead => rfl

theorem fault_of_withFault_next {f : Option Fault} {o : Host.Outcome (State × Reply) Fault Refusal} {t : State}
    {r : Reply} (h : withFault f o = .next (t, r)) : t.fault = f := by
  cases o with
  | next p => cases h; rfl
  | fault | refused => cases h

/-- Settles O10: STEP by R143's own case of `step`, the others by `transact_eq_withFault`. -/
theorem faultedCoreStaysFaulted : Obligations.FaultedCoreStaysFaulted := by
  unfold Obligations.FaultedCoreStaysFaulted
  intro s k faulted
  have stays : transact .step (some s) = .next (s, .status (faultCode (some k))) := by
    rw [← faulted]; exact transact_step (step_of_faulted s faulted)
  have serves tr (notReset : tr.isReset = false) (notStep : tr ≠ .step) :
      transact tr (some s) = withFault (some k) (transact tr (some { s with fault := none })) := by
    rw [← faulted]; exact transact_eq_withFault s notReset notStep
  refine ⟨stays, fun tr t r notReset answer => ?kept, fun font => ⟨_, transact_reset font _, rfl⟩, serves⟩
  by_cases isStep : tr = .step
  · rw [isStep, stays] at answer
    cases answer; exact faulted
  · exact fault_of_withFault_next ((serves tr notReset isStep).symm.trans answer)

end Sys2Proof.Machine

/-! ### The timer unit: TICK and the tone edge (R150, R152) -/

namespace Sys2Proof.Machine

/-- R150: the truncated subtraction of naturals is the counter that stays at 0. -/
theorem countDown_toNat (c : Byte) : (countDown c).toNat = c.toNat - 1 := by
  by_cases zero : c = 0
  · rw [countDown, if_pos zero, zero]; rfl
  · have nonzero : c.toNat ≠ 0 := fun h => zero (BitVec.eq_of_toNat_eq h)
    have := c.isLt
    rw [countDown, if_neg zero, byte_sub_toNat, show (1 : Byte).toNat = 1 from rfl]
    omega

theorem frame_tick (s : State) : Frame [] [.delayTimer, .soundTimer] s (tick s) := by
  refine ⟨fun _ _ => rfl, fun p hp => ?_⟩
  cases p with
  | delayTimer | soundTimer => simp at hp
  | pixels => exact fun _ _ => rfl
  | memory => exact fun _ => rfl
  | _ => rfl

/-- Settles O48: both counters by `countDown_toNat`, all else by the frame of `tick`. -/
theorem tickCountsBothTimersDown : Obligations.TickCountsBothTimersDown := by
  unfold Obligations.TickCountsBothTimersDown
  intro s
  exact ⟨tick s, toneEdge s, rfl, beq_iff_eq, countDown_toNat s.dt, countDown_toNat s.st, tick_pc s, frame_tick s⟩

theorem toneEdge_iff (s : State) : toneEdge s = true ↔ s.st.toNat = 1 := by
  rw [toneEdge, beq_iff_eq, ← BitVec.toNat_inj]; rfl

/-- ST after `k` TICKs and nothing else. -/
theorem iterate_tick_st (s : State) (k : Nat) : (tick^[k] s).st.toNat = s.st.toNat - k := by
  induction k with
  | zero => rfl
  | succ k ih => rw [Function.iterate_succ_apply', tick_st, countDown_toNat, ih, Nat.sub_sub]

/-- Settles O49: the edge is read off ST, which `k` TICKs have lowered by `k`; a STEP's reply is a status. -/
theorem toneEdgeOnExactlyOneTick : Obligations.ToneEdgeOnExactlyOneTick := by
  unfold Obligations.ToneEdgeOnExactlyOneTick
  refine ⟨fun s k => ?nth, fun s => ⟨tick s, rfl, ?oneToZero⟩, fun s t r answer edge => ?noStep⟩
  case nth => rw [toneEdge_iff, iterate_tick_st]; omega
  case oneToZero => rw [toneEdge_iff, tick_st, countDown_toNat]; omega
  case noStep =>
    obtain ⟨u, stepped, -⟩ := step_answers s
    rw [transact_step stepped] at answer
    cases answer
    exact Reply.noConfusion

end Sys2Proof.Machine

/-! ### KEY and FB_READ (R156, R157) -/

namespace Sys2Proof.Machine

theorem keyBit_getLsbD (index : Fin 16) (k : Nat) : (1#16 <<< index.val).getLsbD k = decide (k = index.val) := by
  rw [← BitVec.twoPow_eq, BitVec.getLsbD_twoPow, decide_eq_true index.isLt, Bool.true_and]
  exact decide_eq_decide.2 eq_comm

/-- R156: the one bit is given its level, by OR or by AND with the complement, and the others are kept. -/
theorem keysAfter_getLsbD (keys : Word) (index : Fin 16) (pressed : Bool) {k : Nat} (hk : k < 16) :
    (keysAfter keys index pressed).getLsbD k = if k = index.val then pressed else keys.getLsbD k := by
  cases pressed with
  | true =>
    rw [keysAfter, if_pos rfl, BitVec.getLsbD_or, keyBit_getLsbD]
    by_cases h : k = index.val <;> simp [h]
  | false =>
    rw [keysAfter, if_neg Bool.false_ne_true, BitVec.getLsbD_and, BitVec.getLsbD_not, keyBit_getLsbD]
    by_cases h : k = index.val <;> simp [h, hk]

theorem frame_setKey (s : State) (index : Fin 16) (pressed : Bool) :
    Frame [] [.keyboard] s (setKey s index pressed) := by
  refine ⟨fun _ _ => rfl, fun p hp => ?_⟩
  cases p with
  | keyboard => simp at hp
  | pixels => exact fun _ _ => rfl
  | memory => exact fun _ => rfl
  | _ => rfl

theorem transact_key_of_admitted (s : State) {index : Nat} (pressed : Bool) (h : index < 16) :
    transact (.key index pressed) (some s) = .next (setKey s ⟨index, h⟩ pressed, .nothing) := dif_pos h

theorem transact_key_of_refused (s : State) {index : Nat} (pressed : Bool) (h : ¬index < 16) :
    transact (.key index pressed) (some s) = .refused .keyIndexNotAdmitted := dif_neg h

/-- Settles O50: KEY by its two cases, the index admitted or refused. -/
theorem keySetsOneBitOrIsRefused : Obligations.KeySetsOneBitOrIsRefused := by
  unfold Obligations.KeySetsOneBitOrIsRefused
  intro s index pressed
  constructor
  · intro admitted
    have h : index < 16 := Nat.lt_succ_of_le admitted
    exact ⟨_, transact_key_of_admitted s pressed h, fun _ => keysAfter_getLsbD s.keys ⟨index, h⟩ pressed, rfl,
      frame_setKey s ⟨index, h⟩ pressed⟩
  · intro outOfRange
    have refused := transact_key_of_refused s pressed (Nat.not_lt.2 outOfRange)
    exact ⟨refused, by rw [afterAll, refused]; rfl⟩

/-- R157: `y * 64 + x` gives back its column as remainder and its row as quotient. -/
theorem fbSnapshot_getElem? (fb : Framebuffer) (x : Fin 64) (y : Fin 32) :
    (fbSnapshot fb)[y.val * 64 + x.val]? = some (pixelAt fb x y) := by
  have hx := x.isLt
  have hy := y.isLt
  have column : (y.val * 64 + x.val) % 64 = x.val := by omega
  have row : (y.val * 64 + x.val) / 64 = y.val := by omega
  rw [Vector.getElem?_eq_getElem (show y.val * 64 + x.val < 2048 by omega)]
  simp only [fbSnapshot, Vector.getElem_ofFn, column, row]

/-- Settles O52: FB_READ answers `fbSnapshot` of the state it leaves. -/
theorem snapshotIsRowMajor : Obligations.SnapshotIsRowMajor := by
  unfold Obligations.SnapshotIsRowMajor
  exact fun s => ⟨fbSnapshot s.fb, rfl, fbSnapshot_getElem? s.fb⟩

end Sys2Proof.Machine

/-! ### LOAD (R172) -/

namespace Sys2Proof.Machine

/-- The frame of a store by the host, where no instruction passes its word first (`frame_storeBytes` is of `s.advance`). -/
theorem frame_hostStore (s : State) (a : Nat) (bytes : List Byte) : Frame [] [.memory] s (s.storeBytes a bytes) := by
  refine ⟨fun _ _ => rfl, fun p hp => ?_⟩
  cases p with
  | memory => simp at hp
  | pixels => exact fun _ _ => rfl
  | _ => rfl

theorem transact_load_of_fits (s : State) {bytes : List Byte} (fits : bytes.length ≤ 3584) :
    transact (.load bytes) (some s) = .next (s.storeBytes 0x200 bytes, .loadOk) := by
  have loaded : loadProgram s bytes = some (s.storeBytes 0x200 bytes) := if_neg (Nat.not_lt.2 fits)
  rw [transact, loadReply, loaded]

theorem transact_load_of_tooLong (s : State) {bytes : List Byte} (tooLong : 3584 < bytes.length) :
    transact (.load bytes) (some s) = .next (s, .loadError) := by
  have noRoom : loadProgram s bytes = none := if_pos tooLong
  rw [transact, loadReply, noRoom]

/-- Settles O51: LOAD by its two cases; an image that fits ends by 0x1000, so each byte is read back from its place. -/
theorem loadCopiesTheImage : Obligations.LoadCopiesTheImage := by
  unfold Obligations.LoadCopiesTheImage
  intro s bytes
  constructor
  · intro fits
    have endsInMemory : 0x200 + bytes.length ≤ 0x1000 := Nat.add_le_add_left fits 0x200
    exact ⟨_, transact_load_of_fits s fits,
      fun k inImage => State.memRead_storeBytes_inside s 0x200 bytes k inImage endsInMemory,
      State.memRead_storeBytes_outside s 0x200 bytes, State.storeBytes_pc s _ _, frame_hostStore s 0x200 bytes⟩
  · exact transact_load_of_tooLong s

end Sys2Proof.Machine

/-! ### The decoder and the encoder (R51, R53, R54) -/

namespace Sys2Proof

/-! #### A word and its fields -/

theorem packNNN_of_fields {op : Word} {c : Nibble} (hc : (fieldC op).toNat = c.toNat) :
    packNNN c (fieldNNN op) = op := by
  apply BitVec.eq_of_toNat_eq
  rw [packNNN_toNat, ← hc, fieldC_toNat, fieldNNN_toNat]
  omega

theorem packXKK_of_fields {op : Word} {c : Nibble} (hc : (fieldC op).toNat = c.toNat) :
    packXKK c (fieldX op) (fieldKK op) = op := by
  apply BitVec.eq_of_toNat_eq
  rw [packXKK_toNat, ← hc, fieldC_toNat, fieldX_toNat, fieldKK_toNat]
  omega

theorem packXKK_of_minor {op : Word} {c : Nibble} {kk : Byte} (hc : (fieldC op).toNat = c.toNat)
    (hkk : (fieldKK op).toNat = kk.toNat) : packXKK c (fieldX op) kk = op := by
  rw [← BitVec.eq_of_toNat_eq hkk, packXKK_of_fields hc]

theorem packXYN_of_fields {op : Word} {c : Nibble} (hc : (fieldC op).toNat = c.toNat) :
    packXYN c (fieldX op) (fieldY op) (fieldN op) = op := by
  apply BitVec.eq_of_toNat_eq
  rw [packXYN_toNat, ← hc, fieldC_toNat, fieldX_toNat, fieldY_toNat, fieldN_toNat]
  omega

theorem packXYN_of_minor {op : Word} {c n : Nibble} (hc : (fieldC op).toNat = c.toNat)
    (hn : (fieldN op).toNat = n.toNat) : packXYN c (fieldX op) (fieldY op) n = op := by
  rw [← BitVec.eq_of_toNat_eq hn, packXYN_of_fields hc]

section
variable (c x y n : Nibble) (kk : Byte) (nnn : Addr)

@[simp] theorem fieldC_packNNN : fieldC (packNNN c nnn) = c := by
  apply BitVec.eq_of_toNat_eq
  have := nnn.isLt
  rw [fieldC_toNat, packNNN_toNat]
  omega

@[simp] theorem fieldNNN_packNNN : fieldNNN (packNNN c nnn) = nnn := by
  apply BitVec.eq_of_toNat_eq
  have := nnn.isLt
  rw [fieldNNN_toNat, packNNN_toNat]
  omega

@[simp] theorem fieldC_packXKK : fieldC (packXKK c x kk) = c := fieldC_packNNN c (x ++ kk)

@[simp] theorem fieldX_packXKK : fieldX (packXKK c x kk) = x := by
  apply BitVec.eq_of_toNat_eq
  have := x.isLt
  have := kk.isLt
  rw [fieldX_toNat, packXKK_toNat]
  omega

@[simp] theorem fieldKK_packXKK : fieldKK (packXKK c x kk) = kk := by
  apply BitVec.eq_of_toNat_eq
  have := kk.isLt
  rw [fieldKK_toNat, packXKK_toNat]
  omega

@[simp] theorem fieldC_packXYN : fieldC (packXYN c x y n) = c := fieldC_packXKK c x (y ++ n)

@[simp] theorem fieldX_packXYN : fieldX (packXYN c x y n) = x := fieldX_packXKK c x (y ++ n)

@[simp] theorem fieldY_packXYN : fieldY (packXYN c x y n) = y := by
  apply BitVec.eq_of_toNat_eq
  have := y.isLt
  have := n.isLt
  rw [fieldY_toNat, packXYN_toNat]
  omega

@[simp] theorem fieldN_packXYN : fieldN (packXYN c x y n) = n := by
  apply BitVec.eq_of_toNat_eq
  have := n.isLt
  rw [fieldN_toNat, packXYN_toNat]
  omega

end

/-! #### The words that meet no row -/

theorem opcodeHit_iff (r : OpcodeRow) (op : Word) : opcodeHit r op = true ↔ op &&& r.mask = r.pattern := beq_iff_eq

theorem isUnknownWord_iff (op : Word) :
    isUnknownWord op = true ↔ ∀ r ∈ opcodeRows, op &&& r.mask ≠ r.pattern := by
  simp only [isUnknownWord, Bool.not_eq_true', List.any_eq_false, opcodeHit_iff, ne_eq]

/-! What is left of a word under each of the table's masks. -/

theorem masked_c (op : Word) : (op &&& 0xF000#16).toNat = op.toNat / 4096 * 4096 := by
  rw [← packNNN_of_fields (op := op) rfl, Laws.packNNN_masked, packNNN_toNat, packNNN_of_fields rfl, fieldC_toNat]
  simp only [BitVec.toNat_ofNat, Nat.zero_mod, Nat.add_zero]

theorem masked_cn (op : Word) : (op &&& 0xF00F#16).toNat = op.toNat / 4096 * 4096 + op.toNat % 16 := by
  rw [← packXYN_of_fields (op := op) rfl, Laws.packXYN_masked, packXYN_toNat, packXYN_of_fields rfl, fieldC_toNat,
    fieldN_toNat]
  simp

theorem masked_ckk (op : Word) : (op &&& 0xF0FF#16).toNat = op.toNat / 4096 * 4096 + op.toNat % 256 := by
  rw [← packXKK_of_fields (op := op) rfl, Laws.packXKK_lowMasked, packXKK_toNat, packXKK_of_fields rfl, fieldC_toNat,
    fieldKK_toNat]
  simp

theorem masked_all (op : Word) : (op &&& 0xFFFF#16).toNat = op.toNat :=
  congrArg BitVec.toNat (BitVec.and_allOnes (x := op))

/-- The words no row of R53 covers, by the first nibble and then the minor opcode. `isUnknownWord_of_inGap` ties it to
the table. -/
def InGap (op : Word) : Prop :=
  ((fieldC op).toNat = 0x0 ∧ op ≠ 0x00E0#16 ∧ op ≠ 0x00EE#16) ∨
  (((fieldC op).toNat = 0x5 ∨ (fieldC op).toNat = 0x9) ∧ (fieldN op).toNat ≠ 0) ∨
  ((fieldC op).toNat = 0x8 ∧ (fieldN op).toNat ∉ [0, 1, 2, 3, 4, 5, 6, 7, 0xE]) ∨
  ((fieldC op).toNat = 0xE ∧ (fieldKK op).toNat ≠ 0x9E ∧ (fieldKK op).toNat ≠ 0xA1) ∨
  ((fieldC op).toNat = 0xF ∧ (fieldKK op).toNat ∉ [0x07, 0x0A, 0x15, 0x18, 0x1E, 0x29, 0x33, 0x55, 0x65])

theorem isUnknownWord_of_inGap {op : Word} (gap : InGap op) : isUnknownWord op = true := by
  simp only [InGap, fieldC_toNat, fieldN_toNat, fieldKK_toNat, List.mem_cons, List.not_mem_nil, or_false, not_or, ne_eq,
    ← BitVec.toNat_inj, BitVec.toNat_ofNat] at gap
  rw [isUnknownWord_iff]
  simp only [opcodeRows, opcodeRowsMain, opcodeRowsAlu, opcodeRowsMisc, List.cons_append, List.nil_append,
    List.forall_mem_cons, List.not_mem_nil, false_imp_iff, implies_true, and_true, BitVec.ofNat_eq_ofNat, ne_eq,
    ← BitVec.toNat_inj, masked_c, masked_cn, masked_ckk, masked_all, BitVec.toNat_ofNat]
  obtain zero | fiveOrNine | eight | fourteen | fifteen := gap <;> omega

/-! #### The decoder -/

/-- `i` is an instruction of the machine whose word is `op`. -/
def Reads (op : Word) (i : Instr) : Prop := i.wellFormed = true ∧ encode i = op

theorem reads_unknown {op : Word} (gap : InGap op) : Reads op (.unknown op) := ⟨isUnknownWord_of_inGap gap, rfl⟩

theorem reads_decodeAlu {op : Word} (hc : (fieldC op).toNat = 0x8) : Reads op (decodeAlu op) := by
  unfold decodeAlu
  split
  case h_10 =>
    refine reads_unknown (.inr (.inr (.inl ⟨hc, ?_⟩)))
    simp only [List.mem_cons, List.not_mem_nil, or_false, not_or]
    and_intros <;> assumption
  all_goals exact ⟨rfl, packXYN_of_minor hc ‹_›⟩

theorem reads_decodeKey {op : Word} (hc : (fieldC op).toNat = 0xE) : Reads op (decodeKey op) := by
  unfold decodeKey
  split
  case h_3 not9E notA1 => exact reads_unknown (.inr (.inr (.inr (.inl ⟨hc, not9E, notA1⟩))))
  all_goals exact ⟨rfl, packXKK_of_minor hc ‹_›⟩

theorem reads_decodeMisc {op : Word} (hc : (fieldC op).toNat = 0xF) : Reads op (decodeMisc op) := by
  unfold decodeMisc
  split
  case h_10 =>
    refine reads_unknown (.inr (.inr (.inr (.inr ⟨hc, ?_⟩))))
    simp only [List.mem_cons, List.not_mem_nil, or_false, not_or]
    and_intros <;> assumption
  all_goals exact ⟨rfl, packXKK_of_minor hc ‹_›⟩

/-- The rows 5xy0 and 9xy0, whose only minor opcode is 0. -/
theorem reads_of_minorZero {op : Word} {c : Nibble} {i : Instr} (hc : (fieldC op).toNat = c.toNat)
    (fiveOrNine : (fieldC op).toNat = 0x5 ∨ (fieldC op).toNat = 0x9) (defined : i.wellFormed = true)
    (row : encode i = packXYN c (fieldX op) (fieldY op) 0x0#4) :
    Reads op (if fieldN op = 0#4 then i else .unknown op) := by
  split
  case isTrue hn => exact ⟨defined, row.trans (packXYN_of_minor hc (congrArg BitVec.toNat hn))⟩
  case isFalse hn => exact reads_unknown (.inr (.inl ⟨fiveOrNine, fun h => hn (BitVec.eq_of_toNat_eq h)⟩))

theorem reads_decodeZero {op : Word} (hc : (fieldC op).toNat = 0x0) :
    Reads op (if op = 0x00E0#16 then .cls else if op = 0x00EE#16 then .ret else .unknown op) := by
  split
  case isTrue isCls => exact ⟨rfl, isCls.symm⟩
  case isFalse notCls =>
    split
    case isTrue isRet => exact ⟨rfl, isRet.symm⟩
    case isFalse notRet => exact reads_unknown (.inl ⟨hc, notCls, notRet⟩)

/-- R54's dispatch, by the kind of row each branch stands for. -/
theorem reads_decode (op : Word) : Reads op (decode op) := by
  unfold decode
  split
  case h_1 hc => exact reads_decodeZero hc
  case h_2 hc | h_3 hc | h_11 hc | h_12 hc => exact ⟨rfl, packNNN_of_fields hc⟩
  case h_4 hc | h_5 hc | h_7 hc | h_8 hc | h_13 hc => exact ⟨rfl, packXKK_of_fields hc⟩
  case h_6 hc => exact reads_of_minorZero (c := 0x5#4) hc (.inl hc) rfl rfl
  case h_9 hc => exact reads_decodeAlu hc
  case h_10 hc => exact reads_of_minorZero (c := 0x9#4) hc (.inr hc) rfl rfl
  case h_14 hc => exact ⟨rfl, packXYN_of_fields hc⟩
  case h_15 hc => exact reads_decodeKey hc
  case h_16 hc => exact reads_decodeMisc hc
  case h_17 =>
    have := (fieldC op).isLt
    simp only [imp_false] at *
    omega

/-- Settles O3: `reads_decode` is the statement for one word. -/
theorem encodeInvertsDecode : Obligations.EncodeInvertsDecode := by
  unfold Obligations.EncodeInvertsDecode
  exact reads_decode

/-! #### The table's rows -/

/-- Two rows whose patterns agree on the bits both masks keep are one row. -/
theorem opcodeRows_apart : ∀ r ∈ opcodeRows, ∀ q ∈ opcodeRows, r.pattern &&& q.mask = q.pattern &&& r.mask → r = q := by
  decide

theorem row_unique {op : Word} {r q : OpcodeRow} (hr : r ∈ opcodeRows) (hq : q ∈ opcodeRows)
    (meetsR : op &&& r.mask = r.pattern) (meetsQ : op &&& q.mask = q.pattern) : r = q := by
  apply opcodeRows_apart r hr q hq
  rw [← meetsR, ← meetsQ, BitVec.and_assoc, BitVec.and_assoc, BitVec.and_comm r.mask]

theorem matchesRow (i : Instr) : Laws.MatchesRow.Statement i := by
  cases i with
  | cls => exact Laws.MatchesRow.cls
  | ret => exact Laws.MatchesRow.ret
  | jp nnn => exact Laws.MatchesRow.jp nnn
  | call nnn => exact Laws.MatchesRow.call nnn
  | seImm x kk => exact Laws.MatchesRow.seImm x kk
  | sneImm x kk => exact Laws.MatchesRow.sneImm x kk
  | seReg x y => exact Laws.MatchesRow.seReg x y
  | ldImm x kk => exact Laws.MatchesRow.ldImm x kk
  | addImm x kk => exact Laws.MatchesRow.addImm x kk
  | ldReg x y => exact Laws.MatchesRow.ldReg x y
  | orReg x y => exact Laws.MatchesRow.orReg x y
  | andReg x y => exact Laws.MatchesRow.andReg x y
  | xorReg x y => exact Laws.MatchesRow.xorReg x y
  | addReg x y => exact Laws.MatchesRow.addReg x y
  | sub x y => exact Laws.MatchesRow.sub x y
  | shr x y => exact Laws.MatchesRow.shr x y
  | subn x y => exact Laws.MatchesRow.subn x y
  | shl x y => exact Laws.MatchesRow.shl x y
  | sneReg x y => exact Laws.MatchesRow.sneReg x y
  | ldI nnn => exact Laws.MatchesRow.ldI nnn
  | jpV0 nnn => exact Laws.MatchesRow.jpV0 nnn
  | rnd x kk => exact Laws.MatchesRow.rnd x kk
  | drw x y n => exact Laws.MatchesRow.drw x y n
  | skp x => exact Laws.MatchesRow.skp x
  | sknp x => exact Laws.MatchesRow.sknp x
  | ldVxDt x => exact Laws.MatchesRow.ldVxDt x
  | ldVxK x => exact Laws.MatchesRow.ldVxK x
  | ldDtVx x => exact Laws.MatchesRow.ldDtVx x
  | ldStVx x => exact Laws.MatchesRow.ldStVx x
  | addI x => exact Laws.MatchesRow.addI x
  | ldF x => exact Laws.MatchesRow.ldF x
  | ldB x => exact Laws.MatchesRow.ldB x
  | ldMemVx x => exact Laws.MatchesRow.ldMemVx x
  | ldVxMem x => exact Laws.MatchesRow.ldVxMem x
  | unknown op => exact Laws.MatchesRow.unknown op

theorem named_of_defined (i : Instr) (defined : ∀ w, i ≠ .unknown w) :
    ∃ r ∈ opcodeRows, r.mnemonic = mnemonic i := by
  have found : opcodeRows.any (fun r => r.mnemonic == mnemonic i) = true := by
    cases i with
    | unknown w => exact absurd rfl (defined w)
    | _ => rfl
  obtain ⟨r, hr, named⟩ := List.any_eq_true.1 found
  exact ⟨r, hr, beq_iff_eq.1 named⟩

/-- The two ways a word decodes: by the row it meets, or as UNKNOWN (R54, R57). -/
theorem decode_cases (op : Word) :
    (decode op = .unknown op ∧ ∀ r ∈ opcodeRows, op &&& r.mask ≠ r.pattern) ∨
    (decode op ≠ .unknown op ∧ ∃ r ∈ opcodeRows, op &&& r.mask = r.pattern ∧ mnemonic (decode op) = r.mnemonic) := by
  obtain ⟨wf, back⟩ := reads_decode op
  by_cases defined : ∀ w, decode op ≠ .unknown w
  case neg =>
    obtain ⟨w, unknown⟩ : ∃ w, decode op = .unknown w := by simpa using defined
    rw [unknown] at wf back
    obtain rfl : w = op := back
    exact .inl ⟨unknown, (isUnknownWord_iff w).1 wf⟩
  case pos =>
    obtain ⟨r, hr, named⟩ := named_of_defined (decode op) defined
    have meets := (matchesRow _ wf).1 r hr named
    rw [back, opcodeHit_iff] at meets
    exact .inr ⟨defined op, r, hr, meets, named.symm⟩

theorem decode_eq_unknown_iff (op : Word) : decode op = .unknown op ↔ isUnknownWord op = true := by
  rw [isUnknownWord_iff]
  obtain ⟨unknown, misses⟩ | ⟨known, r, hr, meets, -⟩ := decode_cases op
  · exact iff_of_true unknown misses
  · exact iff_of_false known fun misses => misses r hr meets

/-- Settles O4: the row of `decode_cases` is the only one the word meets. -/
theorem decoderFollowsTheTable : Obligations.DecoderFollowsTheTable := by
  unfold Obligations.DecoderFollowsTheTable
  intro op
  refine ⟨fun r hr meets => ?named, ?unknown, fun r hr q hq => row_unique hr hq⟩
  case named =>
    obtain ⟨-, misses⟩ | ⟨-, q, hq, meetsQ, named⟩ := decode_cases op
    · exact absurd meets (misses r hr)
    · rw [named, row_unique hr hq meets meetsQ]
  case unknown => rw [decode_eq_unknown_iff, isUnknownWord_iff]

/-- Settles O2: each instruction's fields are read back from its word, and an UNKNOWN's word meets no row. -/
theorem decodeInvertsEncode : Obligations.DecodeInvertsEncode := by
  unfold Obligations.DecodeInvertsEncode
  intro i wf
  cases i with
  | unknown op => exact (decode_eq_unknown_iff op).2 wf
  | cls | ret => rfl
  | jp | call | ldI | jpV0 => simp only [encode, decode, fieldC_packNNN, fieldNNN_packNNN, BitVec.reduceToNat]
  | seImm | sneImm | ldImm | addImm | rnd =>
    simp only [encode, decode, fieldC_packXKK, fieldX_packXKK, fieldKK_packXKK, BitVec.reduceToNat]
  | skp | sknp =>
    simp only [encode, decode, decodeKey, fieldC_packXKK, fieldX_packXKK, fieldKK_packXKK, BitVec.reduceToNat]
  | ldVxDt | ldVxK | ldDtVx | ldStVx | addI | ldF | ldB | ldMemVx | ldVxMem =>
    simp only [encode, decode, decodeMisc, fieldC_packXKK, fieldX_packXKK, fieldKK_packXKK, BitVec.reduceToNat]
  | ldReg | orReg | andReg | xorReg | addReg | sub | shr | subn | shl =>
    simp only [encode, decode, decodeAlu, fieldC_packXYN, fieldX_packXYN, fieldY_packXYN, fieldN_packXYN,
      BitVec.reduceToNat]
  | seReg | sneReg | drw =>
    simp only [encode, decode, fieldC_packXYN, fieldX_packXYN, fieldY_packXYN, fieldN_packXYN, BitVec.reduceToNat,
      if_true]

/-- Settles O1: the fourteen words are closed terms, and the decoder computes. -/
theorem spelledWordsDecode : Obligations.SpelledWordsDecode := by
  unfold Obligations.SpelledWordsDecode
  decide

end Sys2Proof

/-! ### An instruction raises its fault or passes (R140 to R142) -/

namespace Sys2Proof.Machine

/-- R142: a fault ends the STEP in the state before it with FAULT set; so only instructions that pass need to be looked
at one by one. -/
theorem exec_raises_or_passes (i : Instr) (s : State) :
    (∃ k, execFault i s = some k ∧ exec i s = .next { s with fault := some k }) ∨ execFault i s = none := by
  have outcome := exec_faultOutcome i s
  cases raised : execFault i s with
  | none => exact .inr rfl
  | some k =>
    rw [raised] at outcome
    exact .inl ⟨k, rfl, outcome⟩

/-- An instruction that passes does not meet its fault's condition. -/
theorem not_of_passes {p : Prop} [Decidable p] {k : Fault} (passes : (if p then some k else none) = none) : ¬p := by
  intro h
  rw [if_pos h] at passes
  cases passes

section
variable {s : State}

theorem exec_call_of_passes {nnn : Addr} (passes : execFault (.call nnn) s = none) :
    ∃ room, exec (.call nnn) s = .next (s.called nnn room) :=
  have room : s.sp.val < 16 := Nat.lt_of_le_of_ne (Nat.le_of_lt_succ s.sp.isLt) (not_of_passes passes)
  ⟨room, exec_call_of_room s nnn room⟩

theorem exec_ret_of_passes (passes : execFault .ret s = none) : exec .ret s = .next s.returned :=
  exec_ret_of_nonempty s (not_of_passes passes)

theorem exec_drw_of_passes {x y n : Nibble} (passes : execFault (.drw x y n) s = none) :
    exec (.drw x y n) s = .next (s.advance.setBlit (s.spriteBlit x y n)) := by
  have fits := not_of_passes passes
  exact exec_drw_of_fits s x y n (by omega)

theorem exec_ldB_of_passes {x : Nibble} (passes : execFault (.ldB x) s = none) :
    exec (.ldB x) s = .next (s.advance.storeBytes s.i.toNat (bcdDigits (s.reg x))) :=
  exec_ldB_of_fits s x (Nat.not_lt.1 (not_of_passes passes))

theorem exec_ldMemVx_of_passes {x : Nibble} (passes : execFault (.ldMemVx x) s = none) :
    exec (.ldMemVx x) s = .next (s.advance.storeBytes s.i.toNat (s.firstRegs x)) :=
  exec_ldMemVx_of_fits s x (Nat.not_lt.1 (not_of_passes passes))

theorem exec_ldVxMem_of_passes {x : Nibble} (passes : execFault (.ldVxMem x) s = none) :
    exec (.ldVxMem x) s = .next (s.blockLoaded x) :=
  exec_ldVxMem_of_fits s x (Nat.not_lt.1 (not_of_passes passes))

end

end Sys2Proof.Machine

/-! ### The invariant (R24) -/

namespace Sys2Proof.Machine

/-- Settles O14: RESET lists no cell, puts pc at 0x200 and clears the stack. -/
theorem invariantHoldsAfterReset : Obligations.InvariantHoldsAfterReset := by
  unfold Obligations.InvariantHoldsAfterReset
  have holds (font : Font) (draws : Nat) : (State.resetWith font draws).Inv :=
    ⟨Memory.wf_nil font, by simp, fun j => by simp⟩
  exact ⟨holds, holds defaultFont 0⟩

/-- The invariant speaks of memory, the font, the stack and a bound on pc only. -/
theorem State.Inv.of_kept {s t : State} (inv : s.Inv) (font : t.font = s.font) (mem : t.mem = s.mem)
    (stack : t.stack = s.stack) (pc : t.pc.toNat ≤ 0x10FE) : t.Inv := by
  obtain ⟨canonical, -, slots⟩ := inv
  exact ⟨by rw [font, mem]; exact canonical, pc, by rw [stack]; exact slots⟩

theorem State.Inv.storeBytes {s : State} (inv : s.Inv) (a : Nat) (bytes : List Byte) : (s.storeBytes a bytes).Inv := by
  obtain ⟨canonical, pc, slots⟩ := inv
  exact ⟨Memory.wf_writeList s.font bytes s.mem a canonical, pc, slots⟩

theorem State.Inv.setPc {s : State} (inv : s.Inv) {target : Word} (bound : target.toNat ≤ 0x10FE) :
    (s.advance.setPc target).Inv :=
  inv.of_kept rfl rfl rfl bound

/-- A slot's value, at most 0x1000, comes back to pc. -/
theorem State.Inv.returned {s : State} (inv : s.Inv) : s.returned.Inv := by
  have ⟨_, _, slots⟩ := inv
  have top := slots ⟨s.sp.val - 1, by have := s.sp.isLt; omega⟩
  exact inv.of_kept rfl rfl rfl (Nat.le_trans top (by decide))

theorem State.Inv.withFault {s : State} (inv : s.Inv) (f : Option Fault) : { s with fault := f }.Inv := inv

/-! #### What a STEP that has fetched its word leaves -/

theorem word_add_two_toNat {w : Word} (room : w.toNat ≤ 0xFFFD) : (w + 2).toNat = w.toNat + 2 := by
  rw [BitVec.toNat_add, show (2 : Word).toNat = 2 from rfl, Nat.mod_eq_of_lt (by omega)]

section
variable {s : State} (inv : s.Inv) (fetched : s.pc.toNat ≤ 0xFFE)
include fetched

theorem advance_pc_le : s.advance.pc.toNat ≤ 0x1000 := by
  rw [State.advance_pc, word_add_two_toNat (by omega)]
  omega

theorem skipIf_pc_le (c : Bool) : (s.advance.skipIf c).pc.toNat ≤ 0x1002 := by
  have passed := advance_pc_le fetched
  rw [State.skipIf_pc]
  split
  · rw [word_add_two_toNat (by omega)]
    omega
  · omega

include inv

theorem inv_advance : s.advance.Inv := inv.of_kept rfl rfl rfl (Nat.le_trans (advance_pc_le fetched) (by decide))

theorem inv_skipIf (c : Bool) : (s.advance.skipIf c).Inv :=
  inv.of_kept (by simp) (by simp) (by simp) (Nat.le_trans (skipIf_pc_le fetched c) (by decide))

theorem inv_called (nnn : Addr) (room : s.sp.val < 16) : (s.called nnn room).Inv := by
  obtain ⟨canonical, -, slots⟩ := inv
  refine ⟨canonical, ?_, fun j => ?_⟩
  · have := nnn.isLt
    exact (zextAddr_toNat nnn).trans_le (by omega)
  · rw [State.called_stack]
    split
    · exact advance_pc_le fetched
    · exact slots j

theorem inv_blockLoaded (x : Nibble) : (s.blockLoaded x).Inv := by
  obtain ⟨-, passes, -⟩ := inv_advance inv fetched
  refine inv.of_kept (State.loadRegs_font _ _ _) (State.loadRegs_mem _ _ _) (State.loadRegs_stack _ _ _) ?_
  rwa [State.blockLoaded, State.loadRegs_pc]

/-- Each instruction's effect on pc, the stack and memory, from a word that was fetched. -/
theorem exec_inv (i : Instr) : ∃ t, exec i s = .next t ∧ t.Inv := by
  obtain ⟨k, -, raises⟩ | passes := exec_raises_or_passes i s
  · exact ⟨_, raises, inv.withFault _⟩
  have advanced := inv_advance inv fetched
  obtain ⟨-, next, -⟩ := inv_advance inv fetched
  cases i with
  | jp nnn =>
    have := nnn.isLt
    exact ⟨_, rfl, inv.setPc (by rw [zextAddr_toNat]; omega)⟩
  | jpV0 nnn =>
    have := nnn.isLt
    have := (s.reg 0).isLt
    exact ⟨_, rfl, inv.setPc (by rw [jpV0_target_toNat]; omega)⟩
  | call nnn =>
    obtain ⟨room, answer⟩ := exec_call_of_passes passes
    exact ⟨_, answer, inv_called inv fetched nnn room⟩
  | ret => exact ⟨_, exec_ret_of_passes passes, inv.returned⟩
  | drw => exact ⟨_, exec_drw_of_passes passes, inv.of_kept rfl rfl rfl next⟩
  | ldB => exact ⟨_, exec_ldB_of_passes passes, advanced.storeBytes _ _⟩
  | ldMemVx => exact ⟨_, exec_ldMemVx_of_passes passes, advanced.storeBytes _ _⟩
  | ldVxMem x => exact ⟨_, exec_ldVxMem_of_passes passes, inv_blockLoaded inv fetched x⟩
  | ldVxK x =>
    cases least : s.leastKey with
    | none => exact ⟨s, exec_ldVxK_of_no_key s x (s.leastKey_none.1 least), inv⟩
    | some k => exact ⟨_, exec_ldVxK_of_leastKey s x least, inv.of_kept rfl rfl rfl next⟩
  | seImm | sneImm | seReg | sneReg | skp | sknp => exact ⟨_, rfl, inv_skipIf inv fetched _⟩
  | _ => exact ⟨_, rfl, inv.of_kept rfl rfl rfl next⟩

end

/-- Settles O15: a STEP changes nothing, records a fault, or runs an instruction whose word was fetched. -/
theorem stepKeepsTheInvariant : Obligations.StepKeepsTheInvariant := by
  unfold Obligations.StepKeepsTheInvariant
  intro s t inv answer
  obtain ⟨-, same⟩ | ⟨-, -, past⟩ | ⟨-, fetched, runs⟩ := step_cases s
  · obtain rfl : s = t := Host.Outcome.next.inj (same.symm.trans answer)
    exact inv
  · obtain rfl : _ = t := Host.Outcome.next.inj (past.symm.trans answer)
    exact inv.withFault _
  · obtain ⟨u, answer', kept⟩ := exec_inv inv fetched _
    obtain rfl : u = t := Host.Outcome.next.inj ((runs.trans answer').symm.trans answer)
    exact kept

/-- Settles O54: STEP by `stepKeepsTheInvariant`, LOAD as a store, and the others write nothing the invariant reads. -/
theorem everyTransactionKeepsTheInvariant : Obligations.EveryTransactionKeepsTheInvariant := by
  unfold Obligations.EveryTransactionKeepsTheInvariant
  have resetInv (font : Font) (draws : Nat) := invariantHoldsAfterReset.1 font draws
  refine ⟨fun tr s t r inv answer => ?_, fun font => ⟨_, transact_reset font none, resetInv font _⟩⟩
  cases tr with
  | reset font => cases answer; exact resetInv font _
  | load bytes =>
    by_cases tooLong : 3584 < bytes.length
    · rw [transact_load_of_tooLong s tooLong] at answer
      cases answer; exact inv
    · rw [transact_load_of_fits s (Nat.not_lt.1 tooLong)] at answer
      cases answer; exact inv.storeBytes _ _
  | step =>
    obtain ⟨u, stepped, -⟩ := step_answers s
    rw [transact_step stepped] at answer
    cases answer
    exact stepKeepsTheInvariant s _ inv stepped
  | key index pressed =>
    by_cases admitted : index < 16
    · rw [transact_key_of_admitted s pressed admitted] at answer
      cases answer; exact inv
    · rw [transact_key_of_refused s pressed admitted] at answer
      cases answer
  | tick | fbRead => cases answer; exact inv

/-- The invariant of the CORE, if it has been RESET, after any list of transactions. -/
theorem inv_afterAll (ts : List Transaction) (c : Option State) (inv : ∀ s, c = some s → s.Inv) :
    ∀ s, afterAll ts c = some s → s.Inv := by
  obtain ⟨keeps, fromNone⟩ := everyTransactionKeepsTheInvariant
  induction ts generalizing c with
  | nil => exact inv
  | cons tr ts ih =>
    rw [afterAll]
    split
    case h_1 t r answer =>
      refine ih (some t) fun s hs => ?_
      obtain rfl : t = s := Option.some.inj hs
      cases c with
      | some u => exact keeps tr u t r (inv u rfl) answer
      | none =>
        cases tr with
        | reset font => cases answer; exact invariantHoldsAfterReset.1 font _
        | load | step | tick | key | fbRead => cases answer
    case h_2 => exact ih c inv
    case h_3 => exact ih c inv

/-- Settles O16: before the first RESET there is no state to speak of. -/
theorem everyScheduleKeepsTheInvariant : Obligations.EveryScheduleKeepsTheInvariant := by
  unfold Obligations.EveryScheduleKeepsTheInvariant
  exact fun ts s => inv_afterAll ts none nofun s

end Sys2Proof.Machine

/-! ### The canonical form of memory -/

namespace Sys2Proof.Machine

/-- Below the least listed address nothing is listed. -/
theorem Memory.lookup_of_lt {m : Memory} {lo a : Nat} (rises : Memory.rising lo m = true) (below : a < lo) :
    Memory.lookup m a = none := by
  induction m generalizing lo with
  | nil => rfl
  | cons c m ih =>
    simp only [Memory.rising, Bool.and_eq_true, decide_eq_true_eq] at rises
    obtain ⟨head, tail⟩ := rises
    rw [Memory.lookup, if_neg (by omega)]
    exact ih tail (by omega)

/-- A listed cell passes the check that all cells pass. -/
theorem Memory.cellOk_of_lookup {font : Font} {m : Memory} (ok : m.all (Memory.cellOk font) = true) {a : Nat} {v : Byte}
    (listed : Memory.lookup m a = some v) : a ≤ 0xFFF ∧ v ≠ unlistedByte font a := by
  induction m with
  | nil => cases listed
  | cons c m ih =>
    simp only [List.all_cons, Bool.and_eq_true] at ok
    obtain ⟨head, tail⟩ := ok
    rw [Memory.lookup] at listed
    split at listed
    case isTrue here =>
      cases listed
      simpa only [Memory.cellOk, here, Bool.and_eq_true, decide_eq_true_eq, bne_iff_ne] using head
    case isFalse => exact ih tail listed

/-- In a canonical memory the reads, which tell what is listed, determine the list of cells as a map. -/
theorem Memory.lookup_eq_of_read_eq {font : Font} {m₁ m₂ : Memory} (ok₁ : m₁.all (Memory.cellOk font) = true)
    (ok₂ : m₂.all (Memory.cellOk font) = true)
    (same : ∀ a ≤ 0xFFF, Memory.read font m₁ a = Memory.read font m₂ a) (a : Nat) :
    Memory.lookup m₁ a = Memory.lookup m₂ a := by
  cases listed₁ : Memory.lookup m₁ a with
  | none =>
    cases listed₂ : Memory.lookup m₂ a with
    | none => rfl
    | some w =>
      obtain ⟨inRange, differs⟩ := Memory.cellOk_of_lookup ok₂ listed₂
      have := same a inRange
      simp only [Memory.read, listed₁, listed₂, Option.getD_none, Option.getD_some] at this
      exact absurd this.symm differs
  | some v =>
    obtain ⟨inRange, differs⟩ := Memory.cellOk_of_lookup ok₁ listed₁
    have := same a inRange
    cases listed₂ : Memory.lookup m₂ a with
    | none =>
      simp only [Memory.read, listed₁, listed₂, Option.getD_none, Option.getD_some] at this
      exact absurd this differs
    | some w =>
      simp only [Memory.read, listed₁, listed₂, Option.getD_some] at this
      rw [this]

/-- Lists with rising addresses that are one map are one list. -/
theorem Memory.eq_of_lookup_eq {m₁ m₂ : Memory} {lo : Nat} (rises₁ : Memory.rising lo m₁ = true)
    (rises₂ : Memory.rising lo m₂ = true) (same : ∀ a, Memory.lookup m₁ a = Memory.lookup m₂ a) : m₁ = m₂ := by
  induction m₁ generalizing m₂ lo with
  | nil =>
    cases m₂ with
    | nil => rfl
    | cons d m₂ => simpa [Memory.lookup] using same d.1
  | cons c m₁ ih =>
    cases m₂ with
    | nil => simpa [Memory.lookup] using same c.1
    | cons d m₂ =>
      obtain ⟨a, v⟩ := c
      obtain ⟨b, w⟩ := d
      simp only [Memory.rising, Bool.and_eq_true, decide_eq_true_eq] at rises₁ rises₂
      obtain ⟨-, tail₁⟩ := rises₁
      obtain ⟨-, tail₂⟩ := rises₂
      have atA := same a
      have atB := same b
      simp only [Memory.lookup, if_true] at atA atB
      have heads : a = b := by
        by_contra apart
        rw [if_neg apart] at atA
        rw [if_neg (Ne.symm apart)] at atB
        rcases Nat.lt_or_gt_of_ne apart with lt | gt
        · rw [Memory.lookup_of_lt tail₂ (by omega)] at atA
          cases atA
        · rw [Memory.lookup_of_lt tail₁ (by omega)] at atB
          cases atB
      subst heads
      rw [if_pos rfl] at atA
      cases atA
      congr 1
      refine ih tail₁ tail₂ fun x => ?_
      by_cases here : x = a
      · rw [Memory.lookup_of_lt tail₁ (by omega), Memory.lookup_of_lt tail₂ (by omega)]
      · simpa only [Memory.lookup, if_neg here] using same x

/-- Settles O18: equal reads list the same cells, and rising addresses leave one order for them. -/
theorem canonicalMemoryIsUnique : Obligations.CanonicalMemoryIsUnique := by
  unfold Obligations.CanonicalMemoryIsUnique
  intro font m₁ m₂ wf₁ wf₂ same
  simp only [Memory.wf, Bool.and_eq_true] at wf₁ wf₂
  obtain ⟨rises₁, ok₁⟩ := wf₁
  obtain ⟨rises₂, ok₂⟩ := wf₂
  exact Memory.eq_of_lookup_eq rises₁ rises₂ (Memory.lookup_eq_of_read_eq ok₁ ok₂ same)

end Sys2Proof.Machine

/-! ### Fetch after store (R41) -/

namespace Sys2Proof.Machine

/-- The word a later STEP fetches is made of what memory then reads, wherever its bytes come from. -/
theorem fetchedAfter_of_memRead {t : State} {a : Nat} {b : Byte} (stored : t.memRead a = b) : FetchedAfter t a b := by
  refine ⟨stored, fun u healthy still => ?_⟩
  have holds : u.memRead a = b := still.trans stored
  constructor
  · intro atPc fits
    rw [step_of_fetch_fits u healthy (by omega), State.nextInstr, atPc, holds]
  · intro pastPc fits
    rw [step_of_fetch_fits u healthy (by omega), State.nextInstr, pastPc, holds]

/-- Settles O19: each stored byte is read back from its place, and a fetch is two reads. -/
theorem storedBytesAreFetched : Obligations.StoredBytesAreFetched := by
  unfold Obligations.StoredBytesAreFetched
  constructor
  · intro s t x r fits answer upToX
    obtain rfl : _ = t := Host.Outcome.next.inj ((exec_ldMemVx_of_fits s x fits).symm.trans answer)
    exact fetchedAfter_of_memRead (memRead_storeBytes_firstRegs s s.advance x fits upToX)
  · intro s t x fits answer
    obtain rfl : _ = t := Host.Outcome.next.inj ((exec_ldB_of_fits s x fits).symm.trans answer)
    have digit (k : Nat) (hk : k < 3) := State.memRead_storeBytes_inside s.advance s.i.toNat (bcdDigits (s.reg x)) k hk
      (Nat.succ_le_succ fits)
    exact ⟨fetchedAfter_of_memRead (digit 0 (by decide)), fetchedAfter_of_memRead (digit 1 (by decide)),
      fetchedAfter_of_memRead (digit 2 (by decide))⟩

end Sys2Proof.Machine

/-! ### A CALL and its RET (R70, R72) -/

namespace Sys2Proof.Machine

/-- Settles O25: the slot below SP is the one the CALL wrote. -/
theorem retReturnsAfterItsCall : Obligations.RetReturnsAfterItsCall := by
  unfold Obligations.RetReturnsAfterItsCall
  intro s t t' nnn room answer sameSp sameStack
  obtain rfl : _ = t := Host.Outcome.next.inj ((exec_call_of_room s nnn room).symm.trans answer)
  have pushed : t'.sp.val = s.sp.val + 1 := congrArg Fin.val sameSp
  refine ⟨t'.returned, exec_ret_of_nonempty t' (by omega), ?target, ?pointer⟩
  case target =>
    have slot : t'.stack[t'.sp.val - 1]'(by omega) = t'.stack[s.sp.val]'room := by
      simp only [pushed, Nat.add_sub_cancel]
    have written := s.called_stack nnn room ⟨s.sp.val, room⟩
    rw [if_pos rfl, ← sameStack] at written
    exact slot.trans written
  case pointer => exact Fin.ext (by simp [State.returned, pushed])

end Sys2Proof.Machine

/-! ### The flag in VF, the random byte, and a sprite drawn twice (R92, R111, R133) -/

namespace Sys2Proof.Machine

/-- R92 with VF as destination: the flag is written last. -/
theorem flagOnly_setResultFlag (s : State) (r : Byte) {c : Bool} {flag : Nat}
    (hflag : (if c = true then 1 else 0) = flag) :
    ((s.advance.setResultFlag 15 r c).reg 15).toNat = flag ∧
      ∀ q, q ≠ 15 → (s.advance.setResultFlag 15 r c).reg q = s.reg q := by
  refine ⟨(State.setResultFlag_vf _ _ _ _).trans hflag, fun q other => ?_⟩
  rw [State.reg_setResultFlag, vf_eq, if_neg other, if_neg other, State.reg_advance]

/-- Settles O33: each of the five ends in `setResultFlag` with its flag. -/
theorem flagWinsOverResultInVF : Obligations.FlagWinsOverResultInVF := by
  unfold Obligations.FlagWinsOverResultInVF
  rintro s y i flag (⟨rfl, rfl⟩ | ⟨rfl, rfl⟩ | ⟨rfl, rfl⟩ | ⟨rfl, rfl⟩ | ⟨rfl, rfl⟩)
  · exact ⟨_, rfl, flagOnly_setResultFlag s _ (carryOf_toNat _ _)⟩
  · exact ⟨_, rfl, flagOnly_setResultFlag s _ (notBorrow_toNat _ _)⟩
  · exact ⟨_, rfl, flagOnly_setResultFlag s _ (lowBit_toNat _)⟩
  · exact ⟨_, rfl, flagOnly_setResultFlag s _ (notBorrow_toNat _ _)⟩
  · exact ⟨_, rfl, flagOnly_setResultFlag s _ (highBit_toNat _)⟩

/-- The state in which RND ends when the source supplies `r` (R133). -/
def State.randomSet (s : State) (x : Nibble) (b : Byte) : State :=
  { s.advance.setReg x b with draws := s.draws + 1 }

theorem rndWith_eq (r : Byte) (x : Nibble) (kk : Byte) (s : State) :
    rndWith r x kk s = .next (s.randomSet x (r &&& kk)) := rfl

theorem State.reg_randomSet (s : State) (x : Nibble) (b : Byte) : (s.randomSet x b).reg x = b :=
  State.reg_setReg_same s.advance x b

theorem frame_randomSet (s : State) (x : Nibble) (b : Byte) : Frame [x] [.randomPlace] s (s.randomSet x b) := by
  obtain ⟨regs, parts⟩ := frame_setReg s x b
  refine ⟨regs, fun p hp => ?_⟩
  have kept := parts p (List.not_mem_nil)
  cases p with
  | randomPlace => simp at hp
  | _ => exact kept

/-- Settles O44: RND is `rndWith` at the source's next byte, and a mask of 0 or 0xFF clears or keeps a byte. -/
theorem randomByteIsMasked : Obligations.RandomByteIsMasked := by
  unfold Obligations.RandomByteIsMasked
  intro s x kk
  constructor
  · exact ⟨_, rfl, s.reg_randomSet x _, rfl, rfl, frame_randomSet s x _⟩
  · intro r
    refine ⟨_, rndWith_eq r x kk s, s.reg_randomSet x _, ?cleared, ?kept, rfl, rfl, frame_randomSet s x _⟩
    case cleared =>
      rintro rfl
      rw [State.reg_randomSet]
      exact BitVec.and_zero
    case kept =>
      rintro rfl
      rw [State.reg_randomSet]
      exact BitVec.and_allOnes

/-- The sprite's place and bytes are those before the draw, unless a coordinate is VF. -/
theorem spriteCovers_setBlit (s : State) (w : Blit) {x y : Nibble} (hx : x ≠ 15) (hy : y ≠ 15) (n : Nibble)
    (px : Fin 64) (py : Fin 32) :
    SpriteCovers (s.advance.setBlit w) x y n px py ↔ SpriteCovers s x y n px py := by
  simp only [SpriteCovers, State.reg_setBlit, vf_eq, hx, hy, if_false, State.memRead_setBlit, State.memRead_advance,
    State.setBlit_i, State.advance_i, State.reg_advance]

/-- Settles O40: the second draw toggles the pixels the first one toggled, and covers a pixel that is set exactly where
the first covered one that was not. -/
theorem drawingTwiceRestores : Obligations.DrawingTwiceRestores := by
  unfold Obligations.DrawingTwiceRestores
  intro s t x y n hx hy fits answer
  obtain rfl : _ = t := Host.Outcome.next.inj ((exec_drw_of_fits s x y n (.inr fits)).symm.trans answer)
  have covers := spriteCovers_setBlit s (s.spriteBlit x y n) hx hy n
  refine ⟨_, exec_drw_of_fits _ x y n (.inr fits), fun px py => ?restored, ?collides⟩
  case restored =>
    by_cases hit : SpriteCovers s x y n px py
    · exact (pixelAt_spriteBlit_of_covers ((covers px py).2 hit)).trans
        (by rw [State.setBlit_fb, pixelAt_spriteBlit_of_covers hit, Bool.not_not])
    · exact (pixelAt_spriteBlit_of_not_covers (mt (covers px py).1 hit)).trans (pixelAt_spriteBlit_of_not_covers hit)
  case collides =>
    have flag (c : Bool) : (if c = true then (1 : Byte) else 0) = 1 ↔ c = true := by cases c <;> decide
    rw [State.setBlit_vf, flag, spriteBlit_collision_iff]
    refine exists_congr fun px => exists_congr fun py => ?_
    rw [covers]
    refine and_congr_right fun hit => ?_
    rw [State.setBlit_fb, pixelAt_spriteBlit_of_covers hit, Bool.not_eq_true']

end Sys2Proof.Machine

/-! ### Refusals (R156, R171) -/

namespace Sys2Proof.Machine

/-- Settles O53: every transaction but KEY answers once there is a state, and KEY by its index. -/
theorem onlyTheNamedTransactionsAreRefused : Obligations.OnlyTheNamedTransactionsAreRefused := by
  unfold Obligations.OnlyTheNamedTransactionsAreRefused
  constructor
  · intro tr notReset
    cases tr with
    | reset => cases notReset
    | load | step | tick | key | fbRead => rfl
  · intro tr s
    cases tr with
    | step =>
      obtain ⟨t, answer, -⟩ := step_answers s
      exact .inl ⟨t, _, transact_step answer⟩
    | key index pressed =>
      by_cases admitted : index < 16
      · exact .inl ⟨_, _, transact_key_of_admitted s pressed admitted⟩
      · exact .inr ⟨index, pressed, rfl, Nat.not_lt.1 admitted, transact_key_of_refused s pressed admitted⟩
    | reset | load | tick | fbRead => exact .inl ⟨_, _, rfl⟩

end Sys2Proof.Machine

/-! ### What an instruction may write (R10 to R18, R22, R30) -/

namespace Sys2Proof.Machine

/-- From `s` to `t` only registers and parts change that the lists name for the instruction. -/
def KeepsUnlisted (i : Instr) (s t : State) : Prop :=
  (∀ r, mayWriteReg i r = false → t.reg r = s.reg r) ∧ ∀ p, mayWritePart i p = false → samePart s t p

/-- A frame whose exceptions the lists name. -/
theorem Frame.keepsUnlisted {i : Instr} {rs : List Nibble} {ps : List Part} {s t : State} (frame : Frame rs ps s t)
    (regs : ∀ r ∈ rs, mayWriteReg i r = true) (parts : ∀ p ∈ ps, mayWritePart i p = true) : KeepsUnlisted i s t := by
  obtain ⟨keepsRegs, keepsParts⟩ := frame
  constructor
  · exact fun r unlisted => keepsRegs r fun hr => Bool.false_ne_true (unlisted.symm.trans (regs r hr))
  · exact fun p unlisted => keepsParts p fun hp => Bool.false_ne_true (unlisted.symm.trans (parts p hp))

theorem frame_refl (s : State) : Frame [] [] s s := ⟨fun _ _ => rfl, fun p _ => samePart_refl s p⟩

/-- R142. -/
theorem frame_withFault (s : State) (f : Option Fault) : Frame [] [.faultStatus] s { s with fault := f } := by
  refine ⟨fun _ _ => rfl, fun p hp => ?_⟩
  cases p with
  | faultStatus => simp at hp
  | pixels => exact fun _ _ => rfl
  | memory => exact fun _ => rfl
  | _ => rfl

section
variable {i : Instr} (s : State) (x : Nibble)

theorem keepsUnlisted_of_frameNone {t : State} (frame : Frame [] [] s t) : KeepsUnlisted i s t :=
  frame.keepsUnlisted (by simp) (by simp)

theorem keepsUnlisted_setReg (b : Byte) (reg : mayWriteReg i x = true) : KeepsUnlisted i s (s.advance.setReg x b) :=
  (frame_setReg s x b).keepsUnlisted (by simpa using reg) (by simp)

theorem keepsUnlisted_setResultFlag (r : Byte) (c : Bool) (reg : mayWriteReg i x = true)
    (flag : mayWriteReg i vf = true) : KeepsUnlisted i s (s.advance.setResultFlag x r c) :=
  (frame_setResultFlag s x r c).keepsUnlisted (by simp [reg, flag]) (by simp)

theorem keepsUnlisted_setI (w : Word) (index : mayWritePart i .index = true) : KeepsUnlisted i s (s.advance.setI w) :=
  (frame_setI s w).keepsUnlisted (by simp) (by simpa using index)

theorem keepsUnlisted_storeBytes (a : Nat) (bytes : List Byte) (memory : mayWritePart i .memory = true) :
    KeepsUnlisted i s (s.advance.storeBytes a bytes) :=
  (frame_storeBytes s a bytes).keepsUnlisted (by simp) (by simpa using memory)

theorem keepsUnlisted_withFault (f : Option Fault) (fault : mayWritePart i .faultStatus = true) :
    KeepsUnlisted i s { s with fault := f } :=
  (frame_withFault s f).keepsUnlisted (by simp) (by simpa using fault)

end

theorem mayWrite_fault_of_raised {i : Instr} {s : State} {k : Fault} (raised : execFault i s = some k) :
    mayWritePart i .faultStatus = true := by
  cases i with
  | call | ret | drw | ldB | ldMemVx | ldVxMem => rfl
  | _ => cases raised

/-- Each instruction's frame is within the lists. -/
theorem exec_keepsUnlisted (i : Instr) (s : State) : ∃ t, exec i s = .next t ∧ KeepsUnlisted i s t := by
  obtain ⟨k, raised, raises⟩ | passes := exec_raises_or_passes i s
  · exact ⟨_, raises, keepsUnlisted_withFault s _ (mayWrite_fault_of_raised raised)⟩
  cases i with
  | ldImm x | addImm x | ldReg x | orReg x | andReg x | xorReg x | ldVxDt x =>
    exact ⟨_, rfl, keepsUnlisted_setReg s x _ (beq_self_eq_true x)⟩
  | addReg x | sub x | shr x | subn x | shl x =>
    exact ⟨_, rfl, keepsUnlisted_setResultFlag s x _ _ (by simp [mayWriteReg]) (by simp [mayWriteReg, vf_eq])⟩
  | ldI | addI | ldF => exact ⟨_, rfl, keepsUnlisted_setI s _ rfl⟩
  | seImm | sneImm | seReg | sneReg | skp | sknp => exact ⟨_, rfl, keepsUnlisted_of_frameNone s (frame_skipIf s _)⟩
  | jp | jpV0 => exact ⟨_, rfl, keepsUnlisted_of_frameNone s (frame_setPc s _)⟩
  | unknown => exact ⟨_, rfl, keepsUnlisted_of_frameNone s (frame_advance s)⟩
  | cls => exact ⟨_, rfl, (frame_blanked s).keepsUnlisted (by simp) (by simp [mayWritePart])⟩
  | rnd x => exact ⟨_, rfl, (frame_randomSet s x _).keepsUnlisted (by simp [mayWriteReg]) (by simp [mayWritePart])⟩
  | ldDtVx x =>
    have frame : Frame [] [.delayTimer] s (s.timersSet (s.reg x) s.st) := frame_timersSet s (by simp) fun _ => rfl
    exact ⟨_, exec_ldDtVx s x, frame.keepsUnlisted (by simp) (by simp [mayWritePart])⟩
  | ldStVx x =>
    have frame : Frame [] [.soundTimer] s (s.timersSet s.dt (s.reg x)) := frame_timersSet s (fun _ => rfl) (by simp)
    exact ⟨_, exec_ldStVx s x, frame.keepsUnlisted (by simp) (by simp [mayWritePart])⟩
  | ldVxK x =>
    cases least : s.leastKey with
    | none =>
      exact ⟨s, exec_ldVxK_of_no_key s x (s.leastKey_none.1 least), keepsUnlisted_of_frameNone s (frame_refl s)⟩
    | some k => exact ⟨_, exec_ldVxK_of_leastKey s x least, keepsUnlisted_setReg s x _ (beq_self_eq_true x)⟩
  | call nnn =>
    obtain ⟨room, answer⟩ := exec_call_of_passes passes
    exact ⟨_, answer, (frame_called s nnn room).keepsUnlisted (by simp) (by simp [mayWritePart])⟩
  | ret => exact ⟨_, exec_ret_of_passes passes, (frame_returned s).keepsUnlisted (by simp) (by simp [mayWritePart])⟩
  | drw =>
    exact ⟨_, exec_drw_of_passes passes,
      (frame_setBlit s _).keepsUnlisted (by simp [mayWriteReg, vf_eq]) (by simp [mayWritePart])⟩
  | ldB => exact ⟨_, exec_ldB_of_passes passes, keepsUnlisted_storeBytes s _ _ rfl⟩
  | ldMemVx => exact ⟨_, exec_ldMemVx_of_passes passes, keepsUnlisted_storeBytes s _ _ rfl⟩
  | ldVxMem x =>
    refine ⟨_, exec_ldVxMem_of_passes passes, fun r unlisted => ?_, fun p _ => samePart_blockLoaded s x p⟩
    rw [State.reg_blockLoaded, if_neg (of_decide_eq_false unlisted)]

theorem keepsUnlisted_of_exec {i : Instr} {s t : State} (answer : exec i s = .next t) : KeepsUnlisted i s t := by
  obtain ⟨u, answer', keeps⟩ := exec_keepsUnlisted i s
  obtain rfl : u = t := Host.Outcome.next.inj (answer'.symm.trans answer)
  exact keeps

/-- Settles O45: the register half of `KeepsUnlisted`. -/
theorem registersHaveOnlyTheirWriters : Obligations.RegistersHaveOnlyTheirWriters := by
  unfold Obligations.RegistersHaveOnlyTheirWriters
  intro i s t r answer unlisted
  obtain ⟨regs, -⟩ := keepsUnlisted_of_exec answer
  exact regs r unlisted

/-- Settles O46: the half of `KeepsUnlisted` about the other parts. -/
theorem partsHaveOnlyTheirWriters : Obligations.PartsHaveOnlyTheirWriters := by
  unfold Obligations.PartsHaveOnlyTheirWriters
  intro i s t p answer unlisted
  obtain ⟨-, parts⟩ := keepsUnlisted_of_exec answer
  exact parts p unlisted

end Sys2Proof.Machine

/-! ### The step cycle (R55) -/

namespace Sys2Proof.Machine

/-- Settles O5: the fetch of a word that fits, then `exec`. -/
theorem stepRunsTheDecodedInstruction : Obligations.StepRunsTheDecodedInstruction := by
  unfold Obligations.StepRunsTheDecodedInstruction
  exact step_of_fetch_fits

/-- Settles O7: the frames of `exec` and of a STEP are each of a state they answer. -/
theorem stepAlwaysAnswersNext : Obligations.StepAlwaysAnswersNext := by
  unfold Obligations.StepAlwaysAnswersNext
  constructor
  · intro s
    obtain ⟨t, answer, -⟩ := step_answers s
    exact ⟨t, answer⟩
  · intro i s
    obtain ⟨t, answer, -⟩ := exec_keepsUnlisted i s
    exact ⟨t, answer⟩

/-- Settles O26: the decoder by the table, and UNKNOWN's meaning is the fetch's advance. -/
theorem unknownWordsAreNoOps : Obligations.UnknownWordsAreNoOps := by
  unfold Obligations.UnknownWordsAreNoOps
  exact fun s op unknown => ⟨(decode_eq_unknown_iff op).2 unknown, rfl⟩

/-! #### A placed word -/

/-- A word is placed where it can be fetched: at pc if it fits there, else at 0x200. -/
theorem fetchPlace_le (s : State) : (fetchPlace s).toNat ≤ 0xFFE := by
  unfold fetchPlace
  split
  case isTrue fits =>
    rw [inBounds_iff] at fits
    omega
  case isFalse => decide

theorem placeWord_memRead (s : State) (op : Word) (k : Nat) (hk : k < 2) :
    (placeWord s op).memRead ((placeWord s op).pc.toNat + k) = [highByte op, lowByte op][k] := by
  have fits := fetchPlace_le s
  exact State.memRead_storeBytes_inside s _ [highByte op, lowByte op] k hk (Nat.add_le_add_right fits 2)

/-- The STEP after a word is placed fetches that word. -/
theorem step_placeWord (s : State) (op : Word) : step (placeWord s op) = exec (decode op) (placeWord s op) := by
  have first := placeWord_memRead s op 0 (by decide)
  have second := placeWord_memRead s op 1 (by decide)
  rw [step_of_fetch_fits _ rfl (fetchPlace_le s), State.nextInstr, ← bigEndian_eq]
  rw [show bigEndian ((placeWord s op).memRead (placeWord s op).pc.toNat) _ = bigEndian (highByte op) (lowByte op) from
    congrArg₂ bigEndian first second, bigEndian_bytes]

/-- Settles O12: the table's 16 bits are the whole word, and the word placed is the word fetched. -/
theorem placedWordRunsNext : Obligations.PlacedWordRunsNext := by
  unfold Obligations.PlacedWordRunsNext
  intro s w
  have whole : tableWord 16 w = BitVec.ofNat 16 w := by
    apply BitVec.eq_of_toNat_eq
    rw [tableWord, BitVec.toNat_ofNat, BitVec.toNat_ofNat, Nat.mod_mod]
  rw [State.withFetchWord, whole]
  exact step_placeWord s _

end Sys2Proof.Machine

/-! ### The run with no program loaded (R174) -/

namespace Sys2Proof.Machine

/-- The state after `k` STEPs of the slide. -/
def slid (font : Font) (draws k : Nat) : State :=
  { State.resetWith font draws with pc := BitVec.ofNat 16 (0x200 + 2 * k) }

theorem slid_pc_toNat (font : Font) (draws : Nat) {k : Nat} (hk : k ≤ 1792) :
    (slid font draws k).pc.toNat = 0x200 + 2 * k := by
  rw [slid, BitVec.toNat_ofNat, Nat.mod_eq_of_lt (by omega)]

/-- Past the font memory is zero, and the zero word is UNKNOWN. -/
theorem step_slid (font : Font) (draws : Nat) {k : Nat} (hk : k < 1792) :
    step (slid font draws k) = .next (slid font draws (k + 1)) := by
  have pc := slid_pc_toNat font draws (Nat.le_of_lt hk)
  have zeros {a : Nat} (past : 80 ≤ a) : (slid font draws k).memRead a = 0 :=
    State.memRead_resetWith_zero font draws past
  rw [step_of_fetch_fits _ rfl (by omega), State.nextInstr, zeros (by omega), zeros (by omega)]
  have noOp : exec (.unknown 0) (slid font draws k) = .next (slid font draws k).advance := rfl
  have next : (slid font draws k).advance = slid font draws (k + 1) := by
    have pcNext : BitVec.ofNat 16 (0x200 + 2 * k) + 2 = BitVec.ofNat 16 (0x200 + 2 * (k + 1)) := by
      rw [Nat.mul_succ, ← Nat.add_assoc, BitVec.ofNat_add _ 2]
      rfl
    simp only [State.advance, slid, pcNext]
  rw [← next]
  exact noOp

theorem run_succ_of_next {M : Host.Core} {s t : M.State} (k : Nat) (answer : M.step s = .next t) :
    M.run (k + 1) s = M.run k t := by
  rw [Host.Core.run, answer]

/-- `k` STEPs of the slide from its `j`-th state, and whatever comes after them. -/
theorem run_slid (font : Font) (draws : Nat) (k n : Nat) {j : Nat} (within : j + k ≤ 1792) :
    Host.Core.run core (k + n) (slid font draws j) = Host.Core.run core n (slid font draws (j + k)) := by
  induction k generalizing j with
  | zero => rw [Nat.zero_add]; rfl
  | succ k ih =>
    have one : Host.Core.run core (k + n + 1) (slid font draws j) = _ :=
      run_succ_of_next (M := core) (k + n) (step_slid font draws (by omega))
    rw [Nat.succ_add, one, ih (by omega), Nat.succ_add_eq_add_succ]

/-- Settles O17: 1792 STEPs slide to 0x1000, where the fetch runs past the end. -/
theorem unloadedMemorySlidesToAFault : Obligations.UnloadedMemorySlidesToAFault := by
  unfold Obligations.UnloadedMemorySlidesToAFault
  intro font draws
  have start : State.resetWith font draws = slid font draws 0 := rfl
  constructor
  · intro k hk
    have slides := run_slid font draws k 0 (j := 0) (by omega)
    rw [Nat.zero_add] at slides
    exact slides
  · have past := step_of_fetch_past (slid font draws 1792) rfl (by rw [slid_pc_toNat] <;> decide)
    have slides := run_slid font draws 1792 1 (j := 0) (by omega)
    exact slides.trans (run_succ_of_next (M := core) 0 past)

end Sys2Proof.Machine

/-! ### What an instruction may see: KEYS, the timers and the random source (R15, R55) -/

namespace Sys2Proof.Machine

/-- `s` with other keys pressed, other timers and the random source at another place. -/
def State.withInputs (s : State) (keys : Word) (dt st : Byte) (draws : Nat) : State :=
  { s with keys := keys, dt := dt, st := st, draws := draws }

/-- `t`, where instruction `i` ended, with each of these inputs in place of its own unless `i` is listed as writing it;
`exec_withInputs` ties it to `exec`. -/
def State.carryInputs (i : Instr) (t : State) (keys : Word) (dt st : Byte) (draws : Nat) : State :=
  t.withInputs keys (if mayWritePart i .delayTimer = true then t.dt else dt)
    (if mayWritePart i .soundTimer = true then t.st else st)
    (if mayWritePart i .randomPlace = true then t.draws else draws)

theorem State.skipIf_withInputs (s : State) (c : Bool) (keys : Word) (dt st : Byte) (draws : Nat) :
    (s.withInputs keys dt st draws).skipIf c = (s.skipIf c).withInputs keys dt st draws := by
  cases c <;> rfl

theorem State.loadRegs_withInputs (s : State) (r : Nat) (bytes : List Byte) (keys : Word) (dt st : Byte) (draws : Nat) :
    (s.withInputs keys dt st draws).loadRegs r bytes = (s.loadRegs r bytes).withInputs keys dt st draws := by
  induction bytes generalizing s r with
  | nil => rfl
  | cons b bytes ih => exact ih (s.setReg (BitVec.ofNat 4 r) b) (r + 1)

theorem execFault_withInputs (i : Instr) (s : State) (keys : Word) (dt st : Byte) (draws : Nat) :
    execFault i (s.withInputs keys dt st draws) = execFault i s := by
  cases i <;> rfl

/-- A fault is raised whatever the inputs, and no instruction that raises one is listed as writing an input. -/
theorem exec_withInputs_of_raised {i : Instr} {s : State} {k : Fault} (raised : execFault i s = some k) (keys : Word)
    (dt st : Byte) (draws : Nat) : exec i (s.withInputs keys dt st draws) =
      .next (State.carryInputs i { s with fault := some k } keys dt st draws) := by
  have outcome := exec_faultOutcome i (s.withInputs keys dt st draws)
  rw [execFault_withInputs, raised] at outcome
  refine outcome.trans ?_
  cases i with
  | call | ret | drw | ldB | ldMemVx | ldVxMem => rfl
  | _ => cases raised

/-- The same instruction from a state with other inputs: those it reads are the same, and the others are carried. -/
theorem exec_withInputs {i : Instr} {s t : State} (answer : exec i s = .next t) {keys : Word} {dt : Byte} (st : Byte)
    {draws : Nat} (readsKeys : (∃ x, i = .skp x ∨ i = .sknp x ∨ i = .ldVxK x) → keys = s.keys)
    (readsDelay : (∃ x, i = .ldVxDt x) → dt = s.dt) (readsRandom : (∃ x kk, i = .rnd x kk) → draws = s.draws) :
    exec i (s.withInputs keys dt st draws) = .next (t.carryInputs i keys dt st draws) := by
  obtain ⟨k, raised, raises⟩ | passes := exec_raises_or_passes i s
  · cases raises.symm.trans answer
    exact exec_withInputs_of_raised raised keys dt st draws
  cases i with
  | skp x =>
    cases answer
    obtain rfl := readsKeys ⟨x, .inl rfl⟩
    exact congrArg Host.Outcome.next (State.skipIf_withInputs s.advance _ s.keys dt st draws)
  | sknp x =>
    cases answer
    obtain rfl := readsKeys ⟨x, .inr (.inl rfl)⟩
    exact congrArg Host.Outcome.next (State.skipIf_withInputs s.advance _ s.keys dt st draws)
  | ldVxK x =>
    obtain rfl := readsKeys ⟨x, .inr (.inr rfl)⟩
    cases least : s.leastKey with
    | none =>
      have noKey := s.leastKey_none.1 least
      cases (exec_ldVxK_of_no_key s x noKey).symm.trans answer
      exact exec_ldVxK_of_no_key (s.withInputs s.keys dt st draws) x noKey
    | some k =>
      cases (exec_ldVxK_of_leastKey s x least).symm.trans answer
      exact exec_ldVxK_of_leastKey (s.withInputs s.keys dt st draws) x least
  | ldVxDt x =>
    cases answer
    obtain rfl := readsDelay ⟨x, rfl⟩
    rfl
  | rnd x kk =>
    cases answer
    obtain rfl := readsRandom ⟨x, kk, rfl⟩
    rfl
  | seImm | sneImm | seReg | sneReg =>
    cases answer
    exact congrArg Host.Outcome.next (State.skipIf_withInputs s.advance _ keys dt st draws)
  | call nnn =>
    obtain ⟨room, answer'⟩ := exec_call_of_passes passes
    cases answer'.symm.trans answer
    exact exec_call_of_room (s.withInputs keys dt st draws) nnn room
  | ret =>
    cases (exec_ret_of_passes passes).symm.trans answer
    exact exec_ret_of_passes (s := s.withInputs keys dt st draws) passes
  | drw =>
    cases (exec_drw_of_passes passes).symm.trans answer
    exact exec_drw_of_passes (s := s.withInputs keys dt st draws) passes
  | ldB =>
    cases (exec_ldB_of_passes passes).symm.trans answer
    exact exec_ldB_of_passes (s := s.withInputs keys dt st draws) passes
  | ldMemVx =>
    cases (exec_ldMemVx_of_passes passes).symm.trans answer
    exact exec_ldMemVx_of_passes (s := s.withInputs keys dt st draws) passes
  | ldVxMem =>
    cases (exec_ldVxMem_of_passes passes).symm.trans answer
    exact (exec_ldVxMem_of_passes (s := s.withInputs keys dt st draws) passes).trans
      (congrArg Host.Outcome.next (State.loadRegs_withInputs s.advance 0 _ keys dt st draws))
  | _ => cases answer; rfl

theorem mayWrite_keyboard (i : Instr) : mayWritePart i .keyboard = false := by cases i <;> rfl

/-- An input carried over from the state before is the one the instruction ended with. -/
theorem carried_of_exec {i : Instr} {s t : State} (answer : exec i s = .next t) :
    t.keys = s.keys ∧ (if mayWritePart i .delayTimer = true then t.dt else s.dt) = t.dt ∧
    (if mayWritePart i .soundTimer = true then t.st else s.st) = t.st ∧
    (if mayWritePart i .randomPlace = true then t.draws else s.draws) = t.draws := by
  obtain ⟨-, parts⟩ := keepsUnlisted_of_exec answer
  simp only [ite_eq_left_iff, Bool.not_eq_true]
  exact ⟨parts .keyboard (mayWrite_keyboard i), fun unlisted => (parts .delayTimer unlisted).symm,
    fun unlisted => (parts .soundTimer unlisted).symm, fun unlisted => (parts .randomPlace unlisted).symm⟩

/-- Settles O47: `exec_withInputs` with all inputs but one as they are, and those end as they did before. -/
theorem inputsAreSeenOnlyByTheirReaders : Obligations.InputsAreSeenOnlyByTheirReaders := by
  unfold Obligations.InputsAreSeenOnlyByTheirReaders
  intro i s t t' answer
  obtain ⟨keyboard, delay, sound, place⟩ := carried_of_exec answer
  refine ⟨fun notSkp notSknp notLdVxK keys answer' => ?keys, fun notLdVxDt dt answer' => ?delay,
    fun st answer' => ?sound, fun notRnd draws answer' => ?place⟩
  case keys =>
    have noReader : ¬∃ x, i = .skp x ∨ i = .sknp x ∨ i = .ldVxK x := by simp [notSkp, notSknp, notLdVxK]
    have runs := exec_withInputs answer (keys := keys) s.st (absurd · noReader) (fun _ => rfl) fun _ => rfl
    cases runs.symm.trans answer'
    simp only [State.carryInputs, State.withInputs, delay, sound, place]
  case delay =>
    have noReader : ¬∃ x, i = .ldVxDt x := by simp [notLdVxDt]
    have runs := exec_withInputs answer (dt := dt) s.st (fun _ => rfl) (absurd · noReader) fun _ => rfl
    cases runs.symm.trans answer'
    simp only [State.carryInputs, State.withInputs, ← keyboard, sound, place]
  case sound =>
    have runs := exec_withInputs answer st (fun _ => rfl) (fun _ => rfl) fun _ => rfl
    cases runs.symm.trans answer'
    simp only [State.carryInputs, State.withInputs, ← keyboard, delay, place]
  case place =>
    have noReader : ¬∃ x kk, i = .rnd x kk := by simp [notRnd]
    have runs := exec_withInputs answer (draws := draws) s.st (fun _ => rfl) (fun _ => rfl) (absurd · noReader)
    cases runs.symm.trans answer'
    simp only [State.carryInputs, State.withInputs, ← keyboard, delay, sound]

end Sys2Proof.Machine
